-- ==== Sys2Proof/Word.lean ====
section
/-! DEFINITION. The bit-vector types of the block (00_scope.md R8, R13; 10_state.md R15, R17, R23) and the two
command ports (30_encoding.md R48). -/

namespace Sys2Proof

/-- A command word or a response word (R48). -/
abbrev Word := BitVec 64

/-- A memory address: exactly 16 bits, no wider address exists (R15, R31). -/
abbrev Addr := BitVec 16

/-- A memory cell (R15). -/
abbrev Byte := BitVec 8

/-- The tick counter and a tick amount (R17, R49). -/
abbrev Tick := BitVec 32

/-- One pixel: brightness, green, red, blue from bit 3 down to bit 0 (R80). -/
abbrev Pixel := BitVec 4

/-- Eight pixels (R9, R23). -/
abbrev Chunk := BitVec 32

/-- The two command ports (R48). -/
inductive Port where
  /-- The host's commands. -/
  | host
  /-- The CPU collaborator's callbacks, and the block's step requests. -/
  | cpu
  deriving DecidableEq, Repr

end Sys2Proof
end

