-- ==== Sys2Proof/Config.lean ====
section
/-! DEFINITION. The fixed geometry (00_scope.md R8, R9), the shape of the frame buffer (10_state.md R23), and the
parameters the spec leaves open (00_scope.md R10), each an opaque constant. -/

namespace Sys2Proof

/-- The dimensions that R12 speaks of, in pixels and lines, and the pixels in one chunk. -/
structure Geometry where
  screenWidth    : Nat
  screenHeight   : Nat
  borderLeft     : Nat
  borderRight    : Nat
  borderTop      : Nat
  borderBottom   : Nat
  pixelsPerChunk : Nat
  deriving DecidableEq, Repr

/-- FB_WIDTH of R9. -/
def Geometry.fbWidth (g : Geometry) : Nat := g.borderLeft + g.screenWidth + g.borderRight

/-- FB_HEIGHT of R9. -/
def Geometry.fbHeight (g : Geometry) : Nat := g.borderTop + g.screenHeight + g.borderBottom

/-- CHUNKS_PER_ROW of R9. -/
def Geometry.chunksPerRow (g : Geometry) : Nat := g.fbWidth / g.pixelsPerChunk

namespace Config

/-- The values of R8. -/
def geometry : Geometry :=
  { screenWidth := 256, screenHeight := 192, borderLeft := 48, borderRight := 48,
    borderTop := 48, borderBottom := 40, pixelsPerChunk := 8 }

/-- FB_HEIGHT (R9): the rows of the frame buffer. -/
abbrev fbRows : Nat := 280

/-- CHUNKS_PER_ROW (R9): the columns of the frame buffer. -/
abbrev fbCols : Nat := 44

theorem fbRows_eq : geometry.fbHeight = fbRows := rfl

theorem fbCols_eq : geometry.chunksPerRow = fbCols := rfl

end Config

/-- One row of the frame buffer; column 0 is the leftmost chunk (R23). -/
abbrev Row := Vector Chunk Config.fbCols

/-- The frame buffer; row 0 is the top scanline (R23). -/
abbrev Frame := Vector Row Config.fbRows

namespace Config

/-- FRAME_TICKS - 1. The spec requires 0 < FRAME_TICKS < 2^32 and gives no value (R10(a), D5): every such value is
possible, and none is known. Assumption log entry 5. -/
opaque frameTicksPred : Fin 4294967295

/-- FRAME_TICKS, the tick budget of one frame (R10(a)). -/
def frameTicks : Tick := BitVec.ofNat 32 (frameTicksPred.val + 1)

/-- INIT_MEMORY, the content of memory at construction (R10(b), D6): the same at every reset, and no value of it is
known. Assumption log entry 6. -/
opaque initMemory : Addr → Byte

/-- What the frame buffer holds after reset, of which R29 says that it is unspecified: a free value. No command
reads it while FB_VALID = 0 (R94). Assumption log entry 7. -/
opaque fbAtReset : Frame

theorem frameTicks_toNat : frameTicks.toNat = frameTicksPred.val + 1 := by
  have h := frameTicksPred.isLt
  simp only [frameTicks, BitVec.toNat_ofNat]
  omega

theorem frameTicks_pos : 0 < frameTicks.toNat := by
  rw [frameTicks_toNat]; omega

end Config

end Sys2Proof
end

