-- ==== Sys2Proof/Syntax.lean ====
section
/-! DEFINITION. The commands of the block: one constructor per row of spec/opcode_table.json (30_encoding.md R51),
with the operands of R50 and R55, each of exactly the width of its field, so that every term is encodable. -/

namespace Sys2Proof

/-- A command (R51). Its port is fixed by its opcode (R49, R52). -/
inductive Instr where
  /-- MEM_RD addr: host read of one memory byte (R63). -/
  | memRd (addr : Addr)
  /-- MEM_WR addr, data: host write of one memory byte (R64). -/
  | memWr (addr : Addr) (data : Byte)
  /-- TICK_ADV amount: host advance of the tick counter (R68). -/
  | tickAdv (amount : Tick)
  /-- TICK_RD: read of the tick counter (R69). -/
  | tickRd
  /-- RUN_FRAME: run the CPU until the frame boundary (R72). -/
  | runFrame
  /-- RENDER: render one frame from the current memory image (R92). -/
  | render
  /-- EXEC_FRAME: run one frame, then render (R93). -/
  | execFrame
  /-- FB_RD row, col: read one chunk of the frame buffer (R94). The operands are not truncated (R55). -/
  | fbRd (row : BitVec 16) (col : BitVec 32)
  /-- STATUS_RD: read the status register (R95). -/
  | statusRd
  /-- CPU_RD addr: the CPU collaborator's read of one memory byte (R65). -/
  | cpuRd (addr : Addr)
  /-- CPU_WR addr, data: the CPU collaborator's write of one memory byte (R66). -/
  | cpuWr (addr : Addr) (data : Byte)
  /-- CPU_ADV amount: the CPU step's advance of the tick counter (R70). -/
  | cpuAdv (amount : Tick)
  /-- CPU_STEP_END: the requested CPU instruction has been executed (R73). -/
  | cpuStepEnd
  deriving DecidableEq, Repr

end Sys2Proof
end

