-- ==== Sys2Proof/Decode.lean ====
section
/-! DEFINITION. The command encoding of 30_encoding.md: fields (R49), formats (R50), the opcode map (R51), the decoder
with the checks of R52 to R54 in the order of R59, and after it the encoder. -/

namespace Sys2Proof

/-- A word of four fields: `OP ++ D ++ A ++ N` (R49). -/
def packWord (op d : Byte) (a : BitVec 16) (n : BitVec 32) : Word := op ++ d ++ a ++ n

/-- OP = w[63:56] (R49). -/
def opField (w : Word) : Byte := w.extractLsb' 56 8

/-- D = w[55:48] (R49). -/
def dField (w : Word) : Byte := w.extractLsb' 48 8

/-- A = w[47:32] (R49). -/
def aField (w : Word) : BitVec 16 := w.extractLsb' 32 16

/-- N = w[31:0] (R49). -/
def nField (w : Word) : BitVec 32 := w.extractLsb' 0 32

/-- The formats of R50. -/
inductive Format where
  | f0 | fa | fda | fn | frc
  deriving DecidableEq, Repr

/-- The format uses D (R50). -/
def Format.usesD : Format → Bool
  | .fda => true
  | .f0 | .fa | .fn | .frc => false

/-- The format uses A (R50). -/
def Format.usesA : Format → Bool
  | .fa | .fda | .frc => true
  | .f0 | .fn => false

/-- The format uses N (R50). -/
def Format.usesN : Format → Bool
  | .fn | .frc => true
  | .f0 | .fa | .fda => false

/-- Every field that the format does not use is 0 (R50, R54). -/
def unusedFieldsZero (f : Format) (w : Word) : Bool :=
  (f.usesD || dField w == 0#8) && (f.usesA || aField w == 0#16) && (f.usesN || nField w == 0#32)

/-- The thirteen rows of the opcode map (R51). -/
inductive Mnemonic where
  | memRd | memWr | tickAdv | tickRd | runFrame | render | execFrame | fbRd | statusRd
  | cpuRd | cpuWr | cpuAdv | cpuStepEnd
  deriving DecidableEq, Repr

/-- Column OP of R51. -/
def Mnemonic.opcode : Mnemonic → Byte
  | .memRd => 0x01#8
  | .memWr => 0x02#8
  | .tickAdv => 0x03#8
  | .tickRd => 0x04#8
  | .runFrame => 0x05#8
  | .render => 0x06#8
  | .execFrame => 0x07#8
  | .fbRd => 0x08#8
  | .statusRd => 0x09#8
  | .cpuRd => 0x81#8
  | .cpuWr => 0x82#8
  | .cpuAdv => 0x83#8
  | .cpuStepEnd => 0x84#8

/-- Column port of R51. -/
def Mnemonic.port : Mnemonic → Port
  | .memRd | .memWr | .tickAdv | .tickRd | .runFrame | .render | .execFrame | .fbRd | .statusRd => .host
  | .cpuRd | .cpuWr | .cpuAdv | .cpuStepEnd => .cpu

/-- Column format of R51. -/
def Mnemonic.format : Mnemonic → Format
  | .memRd | .cpuRd => .fa
  | .memWr | .cpuWr => .fda
  | .tickAdv | .cpuAdv => .fn
  | .fbRd => .frc
  | .tickRd | .runFrame | .render | .execFrame | .statusRd | .cpuStepEnd => .f0

/-- The opcode map read by its OP column; an opcode with no row is reserved (R53). -/
def mnemonicOfOpcode (op : Byte) : Option Mnemonic :=
  match op.toNat with
  | 0x01 => some .memRd
  | 0x02 => some .memWr
  | 0x03 => some .tickAdv
  | 0x04 => some .tickRd
  | 0x05 => some .runFrame
  | 0x06 => some .render
  | 0x07 => some .execFrame
  | 0x08 => some .fbRd
  | 0x09 => some .statusRd
  | 0x81 => some .cpuRd
  | 0x82 => some .cpuWr
  | 0x83 => some .cpuAdv
  | 0x84 => some .cpuStepEnd
  | _ => none

/-- Operand assembly (R55): each operand is its field, as it is. -/
def Mnemonic.assemble (w : Word) : Mnemonic → Instr
  | .memRd => .memRd (aField w)
  | .memWr => .memWr (aField w) (dField w)
  | .tickAdv => .tickAdv (nField w)
  | .tickRd => .tickRd
  | .runFrame => .runFrame
  | .render => .render
  | .execFrame => .execFrame
  | .fbRd => .fbRd (aField w) (nField w)
  | .statusRd => .statusRd
  | .cpuRd => .cpuRd (aField w)
  | .cpuWr => .cpuWr (aField w) (dField w)
  | .cpuAdv => .cpuAdv (nField w)
  | .cpuStepEnd => .cpuStepEnd

/-- Why a word is no command on a port. The block answers each with ILLEGAL_COMMAND (R52 to R54). -/
inductive DecodeError where
  /-- OP is 0x00, 0x0A..0x7F, 0x80 or 0x85..0xFF (R53). -/
  | reservedOpcode
  /-- The opcode belongs to the other port (R52). -/
  | wrongPort
  /-- A field that the format does not use is not 0 (R54). -/
  | unusedFieldNonZero
  deriving DecidableEq, Repr

/-- The decoder, total on every word of either port: steps 2 and 3 of R59. -/
def decode (p : Port) (w : Word) : Except DecodeError Instr :=
  match mnemonicOfOpcode (opField w) with
  | none => .error .reservedOpcode
  | some m =>
    if m.port = p then
      if unusedFieldsZero m.format w then .ok (m.assemble w) else .error .unusedFieldNonZero
    else .error .wrongPort

/-- The row of R51 that a command belongs to. -/
def Instr.mnemonic : Instr → Mnemonic
  | .memRd _ => .memRd
  | .memWr _ _ => .memWr
  | .tickAdv _ => .tickAdv
  | .tickRd => .tickRd
  | .runFrame => .runFrame
  | .render => .render
  | .execFrame => .execFrame
  | .fbRd _ _ => .fbRd
  | .statusRd => .statusRd
  | .cpuRd _ => .cpuRd
  | .cpuWr _ _ => .cpuWr
  | .cpuAdv _ => .cpuAdv
  | .cpuStepEnd => .cpuStepEnd

/-- The port a command is issued on (R51). -/
def Instr.port (i : Instr) : Port := i.mnemonic.port

/-- The encoder: the word of a command (R49 to R51). -/
def encode (i : Instr) : Word :=
  match i with
  | .memRd addr => packWord 0x01#8 0#8 addr 0#32
  | .memWr addr data => packWord 0x02#8 data addr 0#32
  | .tickAdv amount => packWord 0x03#8 0#8 0#16 amount
  | .tickRd => packWord 0x04#8 0#8 0#16 0#32
  | .runFrame => packWord 0x05#8 0#8 0#16 0#32
  | .render => packWord 0x06#8 0#8 0#16 0#32
  | .execFrame => packWord 0x07#8 0#8 0#16 0#32
  | .fbRd row col => packWord 0x08#8 0#8 row col
  | .statusRd => packWord 0x09#8 0#8 0#16 0#32
  | .cpuRd addr => packWord 0x81#8 0#8 addr 0#32
  | .cpuWr addr data => packWord 0x82#8 data addr 0#32
  | .cpuAdv amount => packWord 0x83#8 0#8 0#16 amount
  | .cpuStepEnd => packWord 0x84#8 0#8 0#16 0#32

/-- The port that bit 63 of a word marks: 1 for CPU-port opcodes, 0 for host-port opcodes (R49). -/
def markedPort (w : Word) : Port := if w.getLsbD 63 then .cpu else .host

/-- The command word that a number of `nbits` bits stands for: the bits above `nbits` are 0. -/
def tableWord (nbits w : Nat) : Word := BitVec.ofNat 64 (w % 2 ^ nbits)

/-- What the decoder reads from a word of the opcode table, presented at the port its bit 63 marks.
Assumption log entry 8. -/
def decodeTableWord (nbits w : Nat) : Option Instr :=
  match decode (markedPort (tableWord nbits w)) (tableWord nbits w) with
  | .ok i => some i
  | .error _ => none

end Sys2Proof
end

