-- ==== Sys2Proof/Machine/State.lean ====
section
/-! DEFINITION. The state of the block (10_state.md), the words at its ports (30_encoding.md R48, R57, R58), the reasons
a step could stop, and the state after reset (10_state.md R29). -/

namespace Sys2Proof.Machine

/-- The memory image: (address, byte) pairs, addresses strictly rising, none equal to what an unlisted address reads
as (R15; the form is `Memory.wf`). An unlisted address reads as `Config.initMemory`. Assumption log entry 6. -/
abbrev Memory := List Host.Cell

/-- The control state (R19). -/
inductive RunMode where
  /-- The host port accepts commands. -/
  | idle
  /-- A RUN_FRAME (`renderAfter = false`) or an EXEC_FRAME (`renderAfter = true`) is in progress. -/
  | running (renderAfter : Bool)
  /-- Terminal (60_exceptions.md R100). -/
  | faulted
  deriving DecidableEq, Repr

/-- A word at a port: a command presented to the block, or a word the block has sent (R48, R57, R58). -/
structure PortWord where
  port : Port
  word : Word
  deriving DecidableEq, Repr

/-- The state: the tuple of 10_state.md, and the words at the ports. -/
structure State where
  /-- `Mem` (R15). -/
  mem : Memory
  /-- `TICKS` (R17). -/
  ticks : Tick
  /-- `RUN_MODE` (R19). -/
  runMode : RunMode
  /-- `STEP_ACC` (R20). -/
  stepAcc : Tick
  /-- `FB` (R23). -/
  fb : Frame
  /-- `FB_VALID` (R24). -/
  fbValid : Bool
  /-- `FAULT_CODE` (R22). -/
  faultCode : Byte
  /-- The words presented to the ports and not yet accepted, in arrival order (R41, R56). The model's own field:
  assumption log entry 1. -/
  inbox : List PortWord
  /-- The words the block has sent, oldest first: responses and step requests (R57, R58). The model's own field:
  assumption log entry 2. -/
  sent : List PortWord
  deriving DecidableEq, Repr

/-- Reasons for which a step of the model would stop with a fault. There is none: every fault of the spec is a state
the block goes to (R98), which the model takes as a next state, so nobody raises one, and that is safe.
Assumption log entry 9. -/
inductive Fault where
  deriving DecidableEq, Repr

/-- Reasons for which the model would give an instruction no meaning. -/
inductive Refusal where
  /-- Raised by an arm of `exec` whose instruction has no meaning yet; no arm raises it. Safe: nothing is claimed of
  such an instruction. -/
  | notModelled (mnemonic : String)
  deriving DecidableEq, Repr

/-- The outcome of one step of this block. -/
abbrev Result := Host.Outcome State Fault Refusal

/-- The state right after construction (R29, R111). -/
def State.reset : State :=
  { mem := [], ticks := 0#32, runMode := .idle, stepAcc := 0#32, fb := Config.fbAtReset, fbValid := false,
    faultCode := 0#8, inbox := [], sent := [] }

end Sys2Proof.Machine
end

