-- ==== Sys2Proof/Machine/Flags.lean ====
section
/-! DEFINITION. The flags and the status register (10_state.md R21, R28): STATE, FB_VALID and FAULT_CODE, and the
boundary condition of the synchronizer (41_cycle_sync.md R72, R73). -/

namespace Sys2Proof.Machine

/-- A frame is in progress (R19). -/
def RunMode.isRunning : RunMode → Bool
  | .running _ => true
  | .idle | .faulted => false

/-- Field STATE of STATUS (R21). -/
def stateField : RunMode → BitVec 2
  | .idle => 0#2
  | .running _ => 1#2
  | .faulted => 2#2

/-- STATUS (R21): bits 31:16 and 7:3 read as 0, 15:8 are FAULT_CODE, 2 is FB_VALID, 1:0 are STATE. -/
def statusRegister (s : State) : BitVec 32 :=
  0#16 ++ s.faultCode ++ 0#5 ++ BitVec.ofBool s.fbValid ++ stateField s.runMode

/-- `TICKS >= F`, tested between steps only (R72, R73). -/
def atBoundary (frameTicks ticks : Tick) : Bool := decide (frameTicks.toNat ≤ ticks.toNat)

end Sys2Proof.Machine
end

