-- ==== Sys2Proof/Machine/Ops.lean ====
section
/-! DEFINITION. The shared operations of the block: one byte of the memory image (20_memory.md R30 to R41), responses and
the step request (30_encoding.md R57, R58), fault entry (60_exceptions.md R98, R99), the answers of the FAULTED state
(R100), and the acceptance of a command by its port (30_encoding.md R56). -/

namespace Sys2Proof.Machine

/-- The byte listed at an address, if one is. -/
def Memory.find : Memory → Nat → Option Byte
  | [], _ => none
  | (a, v) :: rest, k => if a = k then some v else Memory.find rest k

/-- `MemRead(a, 1)` (R14, R41): the last byte written, or INIT_MEMORY(a) where none was written since reset. -/
def Memory.read (m : Memory) (a : Addr) : Byte := (Memory.find m a.toNat).getD (Config.initMemory a)

/-- List a byte at an address, in place of the byte listed there. -/
def Memory.put : Memory → Nat → Byte → Memory
  | [], k, v => [(k, v)]
  | (a, w) :: rest, k, v =>
    if k < a then (k, v) :: (a, w) :: rest
    else if a = k then (k, v) :: rest
    else (a, w) :: Memory.put rest k v

/-- List no byte at an address. -/
def Memory.drop (m : Memory) (k : Nat) : Memory := m.filter fun cell => cell.1 != k

/-- `MemWrite(a, 1, v)` (R14, R15): every address is writable. Writing what an unlisted address reads as removes the
entry. -/
def Memory.write (m : Memory) (a : Addr) (v : Byte) : Memory :=
  if v = Config.initMemory a then Memory.drop m a.toNat else Memory.put m a.toNat v

/-- The canonical form: addresses strictly rising and below 65536, no entry equal to what an unlisted address reads
as. -/
abbrev Memory.wf (m : Memory) : Prop :=
  (m.map Prod.fst).Pairwise (· < ·) ∧
    ∀ cell ∈ m, cell.1 < 65536 ∧ cell.2 ≠ Config.initMemory (BitVec.ofNat 16 cell.1)

/-- RKIND of a response word (R57). -/
inductive RespKind where
  | done | value | refused | fault
  deriving DecidableEq, Repr

/-- The RKIND byte (R57). -/
def RespKind.code : RespKind → Byte
  | .done => 0x00#8
  | .value => 0x01#8
  | .refused => 0xFE#8
  | .fault => 0xFF#8

/-- A response word (R57): RKIND in 63:56, 0 in 55:32, RVAL in 31:0. -/
def responseWord (kind : RespKind) (rval : BitVec 32) : Word := kind.code ++ 0#24 ++ rval

/-- The step request (R58). -/
def stepReqWord : Word := 0x80#8 ++ 0#56

/-- Send a word on a port. -/
def send (p : Port) (w : Word) (s : State) : State := { s with sent := s.sent ++ [⟨p, w⟩] }

/-- `respond(kind, value)` (R14, R57). -/
def respond (p : Port) (kind : RespKind) (rval : BitVec 32) (s : State) : State := send p (responseWord kind rval) s

/-- `STEP_ACC <- 0` and `emit STEP_REQ` (R20, R58, R72, R73). -/
def requestStep (s : State) : State := send .cpu stepReqWord { s with stepAcc := 0#32 }

/-- The fault causes of R97. The last two are reserved and never raised by a running block. -/
inductive BlockFault where
  | illegalCommand | zeroProgressStep | tickOverflow | fbNotValid | fbIndexRange | addressRange | configInvalid
  deriving DecidableEq, Repr

/-- The fault codes of R97. -/
def BlockFault.code : BlockFault → Byte
  | .illegalCommand => 0x01#8
  | .zeroProgressStep => 0x02#8
  | .tickOverflow => 0x03#8
  | .fbNotValid => 0x04#8
  | .fbIndexRange => 0x05#8
  | .addressRange => 0x06#8
  | .configInvalid => 0x07#8

/-- The FAULT response with which the host's pending command ends, when a CPU-port command faults during a frame
(R99); `mode` is RUN_MODE as it was before the fault. -/
def endHostCommand (p : Port) (mode : RunMode) (f : BlockFault) (s : State) : State :=
  match p, mode with
  | .cpu, .running _ => respond .host .fault (f.code.setWidth 32) s
  | .cpu, .idle => s
  | .cpu, .faulted => s
  | .host, _ => s

/-- Fault entry: `raise F` (R98), from the state before the faulting command (R96), then the end of the host's pending
command (R99). -/
def raise (p : Port) (f : BlockFault) (s : State) : State :=
  endHostCommand p s.runMode f
    (respond p .fault (f.code.setWidth 32) { s with faultCode := f.code, runMode := .faulted })

/-- The REFUSED answer of the FAULTED state (R57, R100). -/
def refuse (p : Port) (s : State) : State := respond p .refused (s.faultCode.setWidth 32) s

/-- The host port holds (R56): the host's command waits, not accepted, at the front of what waits.
Assumption log entry 4. -/
def hold (w : Word) (s : State) : State := { s with inbox := ⟨.host, w⟩ :: s.inbox }

/-- A host-port command other than STATUS_RD, by RUN_MODE: its effect while IDLE, held while RUNNING (R56), REFUSED while
FAULTED (R100). -/
def onHost (i : Instr) (effect : State → State) (s : State) : State :=
  match s.runMode with
  | .idle => effect s
  | .running _ => hold (encode i) s
  | .faulted => refuse .host s

/-- A CPU-port command, by RUN_MODE: its effect while RUNNING, which is told `render_after`; ILLEGAL_COMMAND while IDLE
(R56); REFUSED while FAULTED (R100). -/
def onCpu (effect : Bool → State → State) (s : State) : State :=
  match s.runMode with
  | .idle => raise .cpu .illegalCommand s
  | .running renderAfter => effect renderAfter s
  | .faulted => refuse .cpu s

/-- A word that is no command of the port it came to: ILLEGAL_COMMAND (R52 to R54), but REFUSED while FAULTED, where
nothing is decoded (R59, R100). -/
def rejectWord (p : Port) (s : State) : State :=
  match s.runMode with
  | .idle => raise p .illegalCommand s
  | .running _ => raise p .illegalCommand s
  | .faulted => refuse p s

/-- The first word of the CPU port among the words that wait, and the words without it. -/
def takeCpu : List PortWord → Option (PortWord × List PortWord)
  | [] => none
  | c :: rest =>
    match c.port with
    | .cpu => some (c, rest)
    | .host =>
      match takeCpu rest with
      | none => none
      | some (d, others) => some (d, c :: others)

/-- The word the block accepts next, and the words that go on waiting (R41, R56): the first to arrive, but while RUNNING
the first of the CPU port, since the host port holds. Assumption log entry 1. -/
def takeNext (mode : RunMode) (inbox : List PortWord) : Option (PortWord × List PortWord) :=
  match mode with
  | .running _ => takeCpu inbox
  | .idle => inbox.head?.map fun c => (c, inbox.tail)
  | .faulted => inbox.head?.map fun c => (c, inbox.tail)

/-- RUN_MODE in which a word presented at a port is taken next: a host word is not while RUNNING (R56). -/
def acceptingMode (p : Port) (mode : RunMode) : RunMode :=
  match p, mode with
  | .host, .running _ => .idle
  | .host, .idle => .idle
  | .host, .faulted => .faulted
  | .cpu, m => m

/-- Present a word at the port its bit 63 marks, ahead of every word that waits, so that the next step takes it.
Assumption log entry 8. -/
def presentFirst (w : Word) (s : State) : State :=
  { s with
    inbox := ⟨markedPort w, w⟩ :: s.inbox
    runMode := acceptingMode (markedPort w) s.runMode }

end Sys2Proof.Machine
end

