-- ==== Sys2Proof/Machine/Renderer.lean ====
section
/-! DEFINITION. The frame renderer (42_frame_renderer.md): pixel values, the serializer, the line-address step and the
render procedure. -/

namespace Sys2Proof.Machine

/-- BLACK (R80). -/
def pixelBlack : Pixel := 0x0#4

/-- WHITE (R80): red, green and blue set, brightness clear, under the layout of D9. -/
def pixelWhite : Pixel := 0x7#4

/-- The colour decision table (R81): ink is black, paper is white. -/
def nib (bit : Bool) : Pixel := if bit then pixelBlack else pixelWhite

/-- A pixel pre-expanded to fill a chunk (R80, R82). -/
def fullChunk (p : Pixel) : Chunk := p ++ p ++ p ++ p ++ p ++ p ++ p ++ p

/-- WHITE_CHUNK (R80). -/
def whiteChunk : Chunk := fullChunk pixelWhite

/-- BLACK_CHUNK (R80). -/
def blackChunk : Chunk := fullChunk pixelBlack

/-- The pixel serializer (R83): bit 7 of the byte gives the leftmost pixel, in bits 31:28 of the chunk. -/
def chunk (b : Byte) : Chunk :=
  nib (b.getLsbD 7) ++ nib (b.getLsbD 6) ++ nib (b.getLsbD 5) ++ nib (b.getLsbD 4)
    ++ nib (b.getLsbD 3) ++ nib (b.getLsbD 2) ++ nib (b.getLsbD 1) ++ nib (b.getLsbD 0)

/-- DISPLAY_BASE (R8, R86). -/
def displayBase : Addr := 0x4000#16

/-- The line-address step (R85), all sums mod 2^16. -/
def lineStep (a : Addr) : Addr :=
  let next := a + 0x100#16
  if next.extractLsb' 8 3 = 0#3 then
    let moved := next + 0x20#16
    if (moved.extractLsb' 0 8).toNat < 0x20 then moved - 0x100#16 else moved - 0x800#16
  else next

/-- LA(i): the line-address sequence (R86). -/
def lineAddr : Nat → Addr
  | 0 => displayBase
  | i + 1 => lineStep (lineAddr i)

/-- A row of the top or the bottom border (R82). -/
def borderRow : Row := Vector.replicate 44 whiteChunk

/-- The chunks of one active line whose first screen byte is at `line` (R89, R91): 6 of left border, the 32 serialized
bytes at `line + j`, 6 of right border. -/
def activeChunks (m : Memory) (line : Addr) : List Chunk :=
  List.replicate 6 whiteChunk
    ++ (List.range 32).map (fun j => chunk (m.read (line + BitVec.ofNat 16 j)))
    ++ List.replicate 6 whiteChunk

theorem activeChunks_length (m : Memory) (line : Addr) : (activeChunks m line).length = 44 := by
  simp [activeChunks]

/-- The row of one active line (R89, R91). -/
def activeRow (m : Memory) (line : Addr) : Row :=
  ⟨(activeChunks m line).toArray, by rw [List.size_toArray, activeChunks_length]⟩

/-- The rows of `n` active lines from LINE_ADDR = `line` on, LINE_ADDR (R25) stepped after each (R91). -/
def activeRows (m : Memory) : (n : Nat) → (line : Addr) → List Row
  | 0, _ => []
  | n + 1, line => activeRow m line :: activeRows m n (lineStep line)

theorem activeRows_length (m : Memory) (n : Nat) (line : Addr) : (activeRows m n line).length = n := by
  induction n generalizing line with
  | zero => rfl
  | succ n ih => simp [activeRows, ih]

/-- The rows that the render procedure writes, from the top (R91): top border, active display from DISPLAY_BASE on, bottom
border. -/
def frameRows (m : Memory) : List Row :=
  List.replicate 48 borderRow ++ activeRows m 192 displayBase ++ List.replicate 40 borderRow

theorem frameRows_length (m : Memory) : (frameRows m).length = 280 := by
  simp [frameRows, activeRows_length]

/-- The frame buffer that the render procedure leaves (R91): every chunk of it is written. The order of the writes is not
observable. Assumption log entry 12. -/
@[irreducible] def paintFrame (m : Memory) : Frame :=
  ⟨(frameRows m).toArray, by rw [List.size_toArray, frameRows_length]⟩

/-- The render procedure (R91): FB is written whole from the current memory, then FB_VALID <- 1. -/
def renderFrame (s : State) : State := { s with fb := paintFrame s.mem, fbValid := true }

end Sys2Proof.Machine
end

