-- ==== Sys2Proof/Machine/CycleSync.lean ====
section
/-! DEFINITION. The cycle-count synchronizer (41_cycle_sync.md): TICK_ADV, TICK_RD, CPU_ADV, RUN_FRAME, CPU_STEP_END.
The operations that depend on FRAME_TICKS take it as an argument (R10); the commands pass `Config.frameTicks`. -/

namespace Sys2Proof.Machine

/-- `add_ticks(x)` (R67): the new value of TICKS, or nothing where the sum does not fit 32 bits. -/
def addTicks (ticks amount : Tick) : Option Tick :=
  if ticks.toNat + amount.toNat ≥ 2 ^ 32 then none else some (ticks + amount)

/-- The effect of TICK_ADV (R68). -/
def hostAdvance (amount : Tick) (s : State) : State :=
  match addTicks s.ticks amount with
  | none => raise .host .tickOverflow s
  | some t => respond .host .done 0#32 { s with ticks := t }

/-- The effect of CPU_ADV (R70). -/
def cpuAdvance (amount : Tick) (s : State) : State :=
  match addTicks s.ticks amount with
  | none => raise .cpu .tickOverflow s
  | some t => respond .cpu .done 0#32 { s with ticks := t, stepAcc := s.stepAcc + amount }

/-- `end_frame(render_after)` (R71): exactly one subtraction of FRAME_TICKS. -/
def endFrame (frameTicks : Tick) (renderAfter : Bool) (s : State) : State :=
  let ended := { s with ticks := s.ticks - frameTicks, runMode := .idle }
  respond .host .done 0#32 (if renderAfter then renderFrame ended else ended)

/-- The effect of RUN_FRAME (R72) and of EXEC_FRAME (R93): the boundary is tested before the first step. -/
def startFrame (frameTicks : Tick) (renderAfter : Bool) (s : State) : State :=
  if atBoundary frameTicks s.ticks then endFrame frameTicks renderAfter s
  else requestStep { s with runMode := .running renderAfter }

/-- The effect of CPU_STEP_END (R73): the DONE for the CPU collaborator goes out first. -/
def endStep (frameTicks : Tick) (renderAfter : Bool) (s : State) : State :=
  if s.stepAcc = 0#32 then raise .cpu .zeroProgressStep s
  else
    let answered := respond .cpu .done 0#32 s
    if atBoundary frameTicks s.ticks then endFrame frameTicks renderAfter answered else requestStep answered

/-- TICK_ADV amount (R68). -/
def execTickAdv (amount : Tick) (s : State) : Result := .next (onHost (.tickAdv amount) (hostAdvance amount) s)

/-- TICK_RD (R69). -/
def execTickRd (s : State) : Result := .next (onHost .tickRd (fun s => respond .host .value s.ticks s) s)

/-- RUN_FRAME (R72). -/
def execRunFrame (s : State) : Result := .next (onHost .runFrame (startFrame Config.frameTicks false) s)

/-- CPU_ADV amount (R70). -/
def execCpuAdv (amount : Tick) (s : State) : Result := .next (onCpu (fun _ => cpuAdvance amount) s)

/-- CPU_STEP_END (R73). -/
def execCpuStepEnd (s : State) : Result := .next (onCpu (endStep Config.frameTicks) s)

end Sys2Proof.Machine
end

