-- ==== Sys2Proof/Machine/Operands.lean ====
section
/-! DEFINITION. Operand values: what a command's operands select (30_encoding.md R55; 42_frame_renderer.md R94). All
operands are unsigned and used as they are. -/

namespace Sys2Proof.Machine

/-- The range check of FB_RD (R94): true when the index selects no chunk. -/
def fbIndexOutOfRange (row : BitVec 16) (col : BitVec 32) : Bool :=
  decide (280 ≤ row.toNat) || decide (44 ≤ col.toNat)

/-- FB[row][col] (R23). Out of range it is 0, which no command uses: FB_RD checks the range first (R94). -/
def fbChunk (fb : Frame) (row col : Nat) : Chunk :=
  if hr : row < Config.fbRows then
    if hc : col < Config.fbCols then fb[row][col] else 0#32
  else 0#32

end Sys2Proof.Machine
end

