-- ==== Sys2Proof/Machine/FrameCommands.lean ====
section
/-! DEFINITION. The commands of the frame renderer (42_frame_renderer.md): RENDER, EXEC_FRAME, FB_RD. -/

namespace Sys2Proof.Machine

/-- The effect of RENDER (R92): TICKS is not tested. -/
def renderNow (s : State) : State := respond .host .done 0#32 (renderFrame s)

/-- The effect of FB_RD (R94): the index range is checked before validity. -/
def readChunk (row : BitVec 16) (col : BitVec 32) (s : State) : State :=
  if fbIndexOutOfRange row col then raise .host .fbIndexRange s
  else if s.fbValid then respond .host .value (fbChunk s.fb row.toNat col.toNat) s
  else raise .host .fbNotValid s

/-- RENDER (R92). -/
def execRender (s : State) : Result := .next (onHost .render renderNow s)

/-- EXEC_FRAME (R93). -/
def execExecFrame (s : State) : Result := .next (onHost .execFrame (startFrame Config.frameTicks true) s)

/-- FB_RD row, col (R94). -/
def execFbRd (row : BitVec 16) (col : BitVec 32) (s : State) : Result :=
  .next (onHost (.fbRd row col) (readChunk row col) s)

end Sys2Proof.Machine
end

