-- ==== Sys2Proof/Machine/Status.lean ====
section
/-! DEFINITION. The status command (43_status.md): STATUS_RD. -/

namespace Sys2Proof.Machine

/-- The answer of STATUS_RD, the one host command that is answered in FAULTED too (R95, R100). -/
def readStatus (s : State) : State := respond .host .value (statusRegister s) s

/-- STATUS_RD (R95): held while RUNNING, as every host command (R56). -/
def execStatusRd (s : State) : Result :=
  match s.runMode with
  | .idle => .next (readStatus s)
  | .running _ => .next (hold (encode .statusRd) s)
  | .faulted => .next (readStatus s)

end Sys2Proof.Machine
end

