-- ==== Sys2Proof/Machine/StoreAccess.lean ====
section
/-! DEFINITION. The store access commands (40_store_access.md): MEM_RD, MEM_WR, CPU_RD, CPU_WR. -/

namespace Sys2Proof.Machine

/-- Read one byte and answer it on a port (R63, R65). -/
def readByte (p : Port) (addr : Addr) (s : State) : State := respond p .value ((s.mem.read addr).setWidth 32) s

/-- Write one byte and answer DONE on a port (R64, R66). -/
def writeByte (p : Port) (addr : Addr) (data : Byte) (s : State) : State :=
  respond p .done 0#32 { s with mem := s.mem.write addr data }

/-- MEM_RD addr (R63). -/
def execMemRd (addr : Addr) (s : State) : Result := .next (onHost (.memRd addr) (readByte .host addr) s)

/-- MEM_WR addr, data (R64). -/
def execMemWr (addr : Addr) (data : Byte) (s : State) : Result :=
  .next (onHost (.memWr addr data) (writeByte .host addr data) s)

/-- CPU_RD addr (R65). -/
def execCpuRd (addr : Addr) (s : State) : Result := .next (onCpu (fun _ => readByte .cpu addr) s)

/-- CPU_WR addr, data (R66). -/
def execCpuWr (addr : Addr) (data : Byte) (s : State) : Result :=
  .next (onCpu (fun _ => writeByte .cpu addr data) s)

end Sys2Proof.Machine
end

