-- ==== Sys2Proof/Machine/Dispatch.lean ====
section
/-! DEFINITION. The dispatch: one arm per command, one direct call of its meaning each. -/

namespace Sys2Proof.Machine

def exec (i : Instr) (s : State) : Host.Outcome State Fault Refusal :=
  match i with
  | .memRd addr => Sys2Proof.Machine.execMemRd addr s
  | .memWr addr data => Sys2Proof.Machine.execMemWr addr data s
  | .tickAdv amount => Sys2Proof.Machine.execTickAdv amount s
  | .tickRd => Sys2Proof.Machine.execTickRd s
  | .runFrame => Sys2Proof.Machine.execRunFrame s
  | .render => Sys2Proof.Machine.execRender s
  | .execFrame => Sys2Proof.Machine.execExecFrame s
  | .fbRd row col => Sys2Proof.Machine.execFbRd row col s
  | .statusRd => Sys2Proof.Machine.execStatusRd s
  | .cpuRd addr => Sys2Proof.Machine.execCpuRd addr s
  | .cpuWr addr data => Sys2Proof.Machine.execCpuWr addr data s
  | .cpuAdv amount => Sys2Proof.Machine.execCpuAdv amount s
  | .cpuStepEnd => Sys2Proof.Machine.execCpuStepEnd s

end Sys2Proof.Machine
end

