-- ==== Sys2Proof/Machine/Step.lean ====
section
/-! DEFINITION. One step: the block accepts the next word of a port that accepts one (30_encoding.md R56), decodes it
(R59) and runs it whole (20_memory.md R37, R41). -/

namespace Sys2Proof.Machine

/-- One step. With no word that a port accepts, nothing changes (41_cycle_sync.md R77; assumption log entry 3). -/
def step (s : State) : Host.Outcome State Fault Refusal :=
  match takeNext s.runMode s.inbox with
  | none => .next s
  | some (c, others) =>
    match decode c.port c.word with
    | .ok i => exec i { s with inbox := others }
    | .error _ => .next (rejectWord c.port { s with inbox := others })

/-- `s` with a command word where `step` takes its next one. Assumption log entry 8. -/
def State.withFetchWord (s : State) (nbits w : Nat) : State := presentFirst (tableWord nbits w) s

end Sys2Proof.Machine
end

