-- ==== Sys2Proof/WellFormed.lean ====
section
/-! DEFINITION. The checks made before a block exists or a command is written: the geometry (00_scope.md R12), the
open parameter FRAME_TICKS (R10), and whether the numbers of a source line fit the fields of R49 (30_encoding.md R55,
R60). A term of Instr needs no check of its own: each operand has exactly its field's width. -/

namespace Sys2Proof

/-- The build-time check of R12: each of the six dimensions is an exact multiple of PIXELS_PER_CHUNK. -/
def Geometry.wellFormed (g : Geometry) : Bool :=
  [g.screenWidth, g.screenHeight, g.borderLeft, g.borderRight, g.borderTop, g.borderBottom].all
    fun d => d % g.pixelsPerChunk == 0

/-- The requirement of R10(a) on FRAME_TICKS. -/
def frameTicksWellFormed (f : Nat) : Bool := decide (0 < f) && decide (f < 4294967296)

/-- A number fits a field of `width` bits (R49, R55). -/
def fitsField (width n : Nat) : Bool := decide (n < 2 ^ width)

/-- The operand of A (R49): an address or a frame-buffer row. -/
def fitsA (n : Nat) : Bool := fitsField 16 n

/-- The operand of D (R49): a data byte. -/
def fitsD (n : Nat) : Bool := fitsField 8 n

/-- The operand of N (R49): an amount or a frame-buffer column. -/
def fitsN (n : Nat) : Bool := fitsField 32 n

end Sys2Proof
end

