-- ==== Sys2Proof/Machine/Assembly.lean ====
section
/-! DEFINITION. The assembler syntax and the pseudo-commands of 30_encoding.md (R60, R61): from a source line to the
words it presents, each with its port. Assumption log entry 15. -/

namespace Sys2Proof.Machine

/-- A source line after its port prefix: a command (R60) or a pseudo-command (R61), its operands plain numbers. -/
inductive Source where
  | memRd (addr : Nat)
  | memWr (addr data : Nat)
  | tickAdv (amount : Nat)
  | tickRd
  | runFrame
  | render
  | execFrame
  | fbRd (row col : Nat)
  | statusRd
  | cpuRd (addr : Nat)
  | cpuWr (addr data : Nat)
  | cpuAdv (amount : Nat)
  | cpuStepEnd
  /-- `LOAD addr, b0, ..., bk`. -/
  | load (addr : Nat) (bytes : List Nat)
  /-- `FILL addr, n, v`. -/
  | fill (addr n v : Nat)
  /-- `DUMP addr, n`. -/
  | dump (addr n : Nat)
  /-- `FRAME`. -/
  | frame
  deriving DecidableEq, Repr

/-- The operands fit their fields (R55). The counts of FILL and DUMP and the length of LOAD are not fields. -/
def Source.wellFormed : Source → Bool
  | .memRd addr => fitsA addr
  | .memWr addr data => fitsA addr && fitsD data
  | .tickAdv amount => fitsN amount
  | .tickRd => true
  | .runFrame => true
  | .render => true
  | .execFrame => true
  | .fbRd row col => fitsA row && fitsN col
  | .statusRd => true
  | .cpuRd addr => fitsA addr
  | .cpuWr addr data => fitsA addr && fitsD data
  | .cpuAdv amount => fitsN amount
  | .cpuStepEnd => true
  | .load addr bytes => fitsA addr && !bytes.isEmpty && bytes.all fitsD
  | .fill addr _ v => fitsA addr && fitsD v
  | .dump addr _ => fitsA addr
  | .frame => true

/-- `MEM_WR addr+i, bi` for i = 0..k, addresses mod 2^16 (R61). -/
def loadBytes : Addr → List Nat → List Instr
  | _, [] => []
  | a, b :: rest => .memWr a (BitVec.ofNat 8 b) :: loadBytes (a + 1#16) rest

/-- `MEM_WR addr+i, v` for i = 0..n-1, addresses mod 2^16 (R61). -/
def fillBytes : Addr → Nat → Byte → List Instr
  | _, 0, _ => []
  | a, n + 1, v => .memWr a v :: fillBytes (a + 1#16) n v

/-- `MEM_RD addr+i` for i = 0..n-1 (R61), addresses mod 2^16. -/
def dumpBytes : Addr → Nat → List Instr
  | _, 0 => []
  | a, n + 1 => .memRd a :: dumpBytes (a + 1#16) n

/-- The commands a source line stands for (R60, R61). -/
def Source.expand : Source → List Instr
  | .memRd addr => [.memRd (BitVec.ofNat 16 addr)]
  | .memWr addr data => [.memWr (BitVec.ofNat 16 addr) (BitVec.ofNat 8 data)]
  | .tickAdv amount => [.tickAdv (BitVec.ofNat 32 amount)]
  | .tickRd => [.tickRd]
  | .runFrame => [.runFrame]
  | .render => [.render]
  | .execFrame => [.execFrame]
  | .fbRd row col => [.fbRd (BitVec.ofNat 16 row) (BitVec.ofNat 32 col)]
  | .statusRd => [.statusRd]
  | .cpuRd addr => [.cpuRd (BitVec.ofNat 16 addr)]
  | .cpuWr addr data => [.cpuWr (BitVec.ofNat 16 addr) (BitVec.ofNat 8 data)]
  | .cpuAdv amount => [.cpuAdv (BitVec.ofNat 32 amount)]
  | .cpuStepEnd => [.cpuStepEnd]
  | .load addr bytes => loadBytes (BitVec.ofNat 16 addr) bytes
  | .fill addr n v => fillBytes (BitVec.ofNat 16 addr) n (BitVec.ofNat 8 v)
  | .dump addr n => dumpBytes (BitVec.ofNat 16 addr) n
  | .frame => [.execFrame]

/-- A pseudo-command, which expands to host-port commands (R61). -/
def Source.isPseudo : Source → Bool
  | .load _ _ | .fill _ _ _ | .dump _ _ | .frame => true
  | .memRd _ | .memWr _ _ | .tickAdv _ | .tickRd | .runFrame | .render | .execFrame | .fbRd _ _ | .statusRd
  | .cpuRd _ | .cpuWr _ _ | .cpuAdv _ | .cpuStepEnd => false

/-- The words of a source line: issued on the CPU port where the line has the prefix `cpu:`, else on the host port
(R60). None for an operand that does not fit, and for a pseudo-command with the prefix (R61). -/
def Source.words (p : Port) (line : Source) : Option (List PortWord) :=
  if line.wellFormed && (p == .host || !line.isPseudo) then some (line.expand.map fun i => ⟨p, encode i⟩) else none

/-- A space or a tab. -/
def isBlank (c : Char) : Bool := c == ' ' || c == '\t'

/-- A text without the blanks at its ends. -/
def trimBlanks (cs : List Char) : List Char := ((cs.dropWhile isBlank).reverse.dropWhile isBlank).reverse

/-- The value of a digit of base 16 or less. -/
def digitValue (c : Char) : Option Nat :=
  let n := c.toNat
  if 48 ≤ n ∧ n ≤ 57 then some (n - 48)
  else if 65 ≤ n ∧ n ≤ 70 then some (n - 55)
  else if 97 ≤ n ∧ n ≤ 102 then some (n - 87)
  else none

/-- A number written in a base, most significant digit first, after the digits already read. -/
def parseDigits (base : Nat) : Nat → List Char → Option Nat
  | acc, [] => some acc
  | acc, c :: cs =>
    match digitValue c with
    | none => none
    | some d => if d < base then parseDigits base (acc * base + d) cs else none

/-- A number: decimal, or with the prefix `0x` or `0b` (R60). -/
def parseNumber : List Char → Option Nat
  | [] => none
  | '0' :: 'x' :: c :: cs => parseDigits 16 0 (c :: cs)
  | '0' :: 'b' :: c :: cs => parseDigits 2 0 (c :: cs)
  | c :: cs => parseDigits 10 0 (c :: cs)

/-- A text cut at its commas. -/
def splitCommas : List Char → List (List Char)
  | [] => [[]]
  | c :: cs =>
    if c == ',' then [] :: splitCommas cs
    else
      match splitCommas cs with
      | [] => [[c]]
      | first :: rest => (c :: first) :: rest

/-- Every number of a list of texts, if each is one. -/
def parseNumbers : List (List Char) → Option (List Nat)
  | [] => some []
  | cs :: rest =>
    match parseNumber (trimBlanks cs), parseNumbers rest with
    | some n, some ns => some (n :: ns)
    | _, _ => none

/-- The comma-separated operands after a mnemonic (R60). -/
def parseOperands (cs : List Char) : Option (List Nat) :=
  if (trimBlanks cs).isEmpty then some [] else parseNumbers (splitCommas cs)

/-- The command or pseudo-command of a mnemonic with its operands in the order of R60 and R61. -/
def sourceOf (name : List Char) (operands : List Nat) : Option Source :=
  match operands with
  | [] =>
    if name = "TICK_RD".toList then some .tickRd
    else if name = "RUN_FRAME".toList then some .runFrame
    else if name = "RENDER".toList then some .render
    else if name = "EXEC_FRAME".toList then some .execFrame
    else if name = "STATUS_RD".toList then some .statusRd
    else if name = "CPU_STEP_END".toList then some .cpuStepEnd
    else if name = "FRAME".toList then some .frame
    else none
  | a :: rest =>
    if name = "LOAD".toList then some (.load a rest)
    else
      match rest with
      | [] =>
        if name = "MEM_RD".toList then some (.memRd a)
        else if name = "TICK_ADV".toList then some (.tickAdv a)
        else if name = "CPU_RD".toList then some (.cpuRd a)
        else if name = "CPU_ADV".toList then some (.cpuAdv a)
        else none
      | [b] =>
        if name = "MEM_WR".toList then some (.memWr a b)
        else if name = "FB_RD".toList then some (.fbRd a b)
        else if name = "CPU_WR".toList then some (.cpuWr a b)
        else if name = "DUMP".toList then some (.dump a b)
        else none
      | [b, c] => if name = "FILL".toList then some (.fill a b c) else none
      | _ => none

/-- A line without its port prefix, and the port it is issued on (R60). -/
def splitPort : List Char → Port × List Char
  | 'c' :: 'p' :: 'u' :: ':' :: cs => (.cpu, cs)
  | cs => (.host, cs)

/-- The words a line of text presents, or nothing where it is no line of R60 or R61. -/
def assembleLine (line : List Char) : Option (List PortWord) :=
  let (p, body) := splitPort (trimBlanks line)
  let text := trimBlanks body
  match parseOperands (text.dropWhile fun c => !isBlank c) with
  | none => none
  | some operands =>
    match sourceOf (text.takeWhile fun c => !isBlank c) operands with
    | none => none
    | some source => source.words p

end Sys2Proof.Machine
end

