-- ==== Sys2Proof/Safety.lean ====
section
/-! DEFINITION. The terms that claims use: the closed forms of the renderer (42_frame_renderer.md R84, R86, R88, R90), the
shape of the states a run reaches (`Inv`), sequences of commands and CPU steps (41_cycle_sync.md R74), and the words on
the ports (30_encoding.md R57, R58). None of it is used by the machine. -/

namespace Sys2Proof.Safety

open Sys2Proof.Machine

/-! ### Words at the ports and what steps take -/

/-- A response as it stands in `sent` (R57). -/
def said (p : Port) (kind : RespKind) (rval : BitVec 32) : PortWord := ⟨p, responseWord kind rval⟩

/-- A command as it is presented to a port (R48). -/
def issued (p : Port) (i : Instr) : PortWord := ⟨p, encode i⟩

/-- STEP_REQ as it stands in `sent` (R58). -/
def stepRequest : PortWord := ⟨.cpu, 0x8000000000000000#64⟩

/-- How many responses were sent on a port: every word sent but the step requests (R57, R58). -/
def responses (p : Port) (s : State) : Nat := (s.sent.filter fun c => c.port == p && c != stepRequest).length

/-- How many step requests were sent (R58). -/
def stepRequests (s : State) : Nat := (s.sent.filter fun c => c == stepRequest).length

/-- The responses still owed to the host: one while its RUN_FRAME or EXEC_FRAME is in progress (R57). -/
def owedToHost (s : State) : Nat := if s.runMode.isRunning then 1 else 0

/-- The state after a command that is only answered. -/
def answered (s : State) (p : Port) (kind : RespKind) (rval : BitVec 32) : State :=
  { s with sent := s.sent ++ [said p kind rval] }

/-- The state after a fault with which a command of port `p` ends (R96, R98), outside a frame. -/
def stopped (s : State) (p : Port) (code : Byte) : State :=
  { s with faultCode := code, runMode := .faulted, sent := s.sent ++ [said p .fault (code.setWidth 32)] }

/-- The state after a fault of a CPU-port word during a frame (R98, R99): the host's command ends with it too. -/
def stoppedFrame (s : State) (code : Byte) : State :=
  { s with
    faultCode := code, runMode := .faulted
    sent := s.sent ++ [said .cpu .fault (code.setWidth 32), said .host .fault (code.setWidth 32)] }

/-- The state after an ILLEGAL_COMMAND of a word that came to port `p` (R97, R98, R99). -/
def illegal (s : State) (p : Port) : State :=
  if s.runMode.isRunning then stoppedFrame s 0x01#8 else stopped s p 0x01#8

/-- The next step takes a word and runs the command it decodes to (R56, R59). -/
def Runs (s : State) (i : Instr) : Prop :=
  ∃ c others, takeNext s.runMode s.inbox = some (c, others) ∧ decode c.port c.word = .ok i

/-- A host-port command is REFUSED while FAULTED, and nothing else happens (R100). -/
def HostGate (i : Instr) : Prop :=
  ∀ s : State, s.runMode = .faulted →
    exec i s = .next (answered s .host .refused (s.faultCode.setWidth 32))

/-- What every CPU-port command does outside RUNNING: ILLEGAL_COMMAND while IDLE (R56), REFUSED while FAULTED (R100). -/
def CpuGate (i : Instr) : Prop :=
  ∀ s : State,
    (s.runMode = .idle → exec i s = .next (stopped s .cpu 0x01#8)) ∧
    (s.runMode = .faulted → exec i s = .next (answered s .cpu .refused (s.faultCode.setWidth 32)))

/-- The words of the host port that wait, oldest first. -/
def waitingHost (s : State) : List PortWord := s.inbox.filter fun c => c.port == .host

/-- The states a run from reset reaches in which no MEM_WR or CPU_WR of the address has run, whatever words arrive at the
ports and whenever they do: the cell has not been written since reset (R41, R63). -/
inductive Unwritten (a : Addr) : State → Prop where
  | reset : Unwritten a State.reset
  | arrive {s : State} (words : List PortWord) : Unwritten a s → Unwritten a { s with inbox := words }
  | step {s t : State} : Unwritten a s → Machine.step s = .next t →
      (∀ data, ¬ Runs s (.memWr a data) ∧ ¬ Runs s (.cpuWr a data)) → Unwritten a t

/-- The word with the fields of R49 is ILLEGAL_COMMAND on port `p` for a non-zero unused field (R54). -/
def UnusedIllegal (p : Port) (op d : Byte) (a : BitVec 16) (n : BitVec 32) : Prop :=
  decode p (op ++ d ++ a ++ n) = .error .unusedFieldNonZero

/-! ### Closed forms of the renderer -/

/-- `spread(b)` of R84: nibble 0xF where the bit is 1. -/
def spread (b : Byte) : Chunk :=
  let nibble := fun (bit : Bool) => if bit then 0xF#4 else 0x0#4
  nibble (b.getLsbD 7) ++ nibble (b.getLsbD 6) ++ nibble (b.getLsbD 5) ++ nibble (b.getLsbD 4)
    ++ nibble (b.getLsbD 3) ++ nibble (b.getLsbD 2) ++ nibble (b.getLsbD 1) ++ nibble (b.getLsbD 0)

/-- The closed form of LA(i) (R86): 0x4000 + (i[7:6] << 11) + (i[2:0] << 8) + (i[5:3] << 5). -/
def lineAddrClosed (i : Nat) : Nat := 0x4000 + i / 64 % 4 * 0x800 + i % 8 * 0x100 + i / 8 % 8 * 0x20

/-- The address of screen byte `j` of active line `i` (R88). -/
def screenAddr (i j : Nat) : Addr := BitVec.ofNat 16 (lineAddrClosed i + j)

/-- The active line that shows an address of the screen bitmap (R88): (a[12:11] << 6) + (a[7:5] << 3) + a[10:8]. -/
def lineOf (a : Addr) : Nat := a.toNat / 0x800 % 4 * 64 + a.toNat / 0x20 % 8 * 8 + a.toNat / 0x100 % 8

/-- The screen chunk that shows an address of the screen bitmap (R88): a[4:0]. -/
def columnOf (a : Addr) : Nat := a.toNat % 32

/-- The screen bitmap 0x4000..0x57FF (R39). -/
def inScreen (a : Addr) : Prop := 0x4000 ≤ a.toNat ∧ a.toNat ≤ 0x57FF

/-- A position of the active display (R79). -/
def isActive (r c : Nat) : Prop := 48 ≤ r ∧ r < 240 ∧ 6 ≤ c ∧ c < 38

/-- A position of the border (R79, R82). -/
def isBorder (r c : Nat) : Prop :=
  r < 280 ∧ c < 44 ∧ (r < 48 ∨ 240 ≤ r ∨ c < 6 ∨ 38 ≤ c)

/-- `frame(Mem)` (R90). -/
def frameOf (m : Memory) : Frame :=
  Vector.ofFn fun r => Vector.ofFn fun c =>
    if 48 ≤ r.val ∧ r.val < 240 ∧ 6 ≤ c.val ∧ c.val < 38 then
      chunk (m.read (screenAddr (r.val - 48) (c.val - 6)))
    else whiteChunk

/-! ### The states a run reaches -/

/-- The invariant of every run. -/
structure Inv (s : State) : Prop where
  /-- The memory list is in its canonical form (R15). -/
  memCanonical : s.mem.wf
  /-- FAULT_CODE is 0 until the fault that moves RUN_MODE to FAULTED (R22). -/
  faultedIff : s.runMode = .faulted ↔ s.faultCode ≠ 0#8
  /-- Codes 0x06 and up are never produced (R97). -/
  faultCodeProduced : s.faultCode.toNat ≤ 5
  /-- While a step is outstanding, TICKS is its value at the STEP_REQ, which was below FRAME_TICKS, and the amounts of
  the step (R20, R72, R73). -/
  stepStartedBelow : s.runMode.isRunning = true →
    s.stepAcc.toNat ≤ s.ticks.toNat ∧ s.ticks.toNat - s.stepAcc.toNat < Config.frameTicks.toNat
  /-- With FB_VALID, the frame buffer holds a complete frame (R21). -/
  fbComplete : s.fbValid = true → ∃ m : Memory, m.wf ∧ s.fb = frameOf m

/-! ### Sequences of commands -/

/-- Run commands one after the other, stopping at the first fault or refusal of the model. -/
def runAll : List Instr → State → Result
  | [], s => .next s
  | i :: rest, s =>
    match exec i s with
    | .next t => runAll rest t
    | .fault r => .fault r
    | .refused r => .refused r

/-- A command the CPU collaborator may send inside a step (R58). -/
def isStepCommand : Instr → Bool
  | .cpuRd _ | .cpuWr _ _ | .cpuAdv _ => true
  | .memRd _ | .memWr _ _ | .tickAdv _ | .tickRd | .runFrame | .render | .execFrame | .fbRd _ _ | .statusRd
  | .cpuStepEnd => false

/-- The ticks a command of a step reports (R70). -/
def reported : Instr → Nat
  | .cpuAdv amount => amount.toNat
  | .memRd _ | .memWr _ _ | .tickAdv _ | .tickRd | .runFrame | .render | .execFrame | .fbRd _ _ | .statusRd
  | .cpuRd _ | .cpuWr _ _ | .cpuStepEnd => 0

/-- The total of a step (R20, R74). -/
def stepTotal (body : List Instr) : Nat := (body.map reported).sum

/-- The total of several steps (R74). -/
def stepsTotal (steps : List (List Instr)) : Nat := (steps.map stepTotal).sum

/-- A step's commands are of the kinds R58 allows, and its total is positive (R117). -/
def StepOk (body : List Instr) : Prop := body.all isStepCommand = true ∧ 0 < stepTotal body

/-- The CPU-port commands of a sequence of steps, each ended by CPU_STEP_END (R58). -/
def stepCommands (steps : List (List Instr)) : List Instr := (steps.map fun body => body ++ [.cpuStepEnd]).flatten

/-- The command that starts a frame: RUN_FRAME, or EXEC_FRAME for a render at its end (R72, R93). -/
def frameCommand (renderAfter : Bool) : Instr := if renderAfter then .execFrame else .runFrame

end Sys2Proof.Safety
end

