-- ==== Sys2Proof/Certificates/Slice0/Obligations.lean ====
section
/-! DEFINITION. The statements for the provers, in the order of the spec's files. -/

open Sys2Proof Sys2Proof.Machine Sys2Proof.Safety

/-! ### Encoding (30_encoding.md) -/

/-- Decoding the word of a command on its own port gives the command back, every operand at every value. -/
def Obligations.DecodeEncode : Prop := ∀ i : Instr, decode i.port (encode i) = .ok i

/-- A word that decodes on a port is the one word of its command, and the port is the command's. -/
def Obligations.EncodeDecode : Prop :=
  ∀ (p : Port) (w : Word) (i : Instr), decode p w = .ok i → encode i = w ∧ i.port = p

/-- R62: the worked encodings, read by the decoder and written by the encoder. -/
def Obligations.WorkedEncodings : Prop :=
  ∀ x ∈ [(Instr.memWr 0x4000#16 0xB0#8, 0x02B0400000000000#64), (.memRd 0x4000#16, 0x0100400000000000#64),
      (.tickAdv 100#32, 0x0300000000000064#64), (.tickRd, 0x0400000000000000#64), (.runFrame, 0x0500000000000000#64),
      (.render, 0x0600000000000000#64), (.execFrame, 0x0700000000000000#64), (.fbRd 48#16 6#32, 0x0800003000000006#64),
      (.statusRd, 0x0900000000000000#64), (.cpuRd 0x8000#16, 0x8100800000000000#64),
      (.cpuWr 0x5AFF#16 0x38#8, 0x82385AFF00000000#64), (.cpuAdv 4#32, 0x8300000000000004#64),
      (.cpuStepEnd, 0x8400000000000000#64)],
    encode x.1 = x.2 ∧ decode x.1.port x.2 = .ok x.1

/-- R52: an opcode of the other port is ILLEGAL_COMMAND. -/
def Obligations.WrongPortIsIllegal : Prop :=
  ∀ (s : State) (c : PortWord) (others : List PortWord),
    takeNext s.runMode s.inbox = some (c, others) → s.runMode ≠ .faulted →
    (c.port = .cpu ∧ 0x01 ≤ (opField c.word).toNat ∧ (opField c.word).toNat ≤ 0x09) ∨
      (c.port = .host ∧ 0x81 ≤ (opField c.word).toNat ∧ (opField c.word).toNat ≤ 0x84) →
    step s = .next (illegal { s with inbox := others } c.port)

/-- R53: the reserved opcodes are ILLEGAL_COMMAND on either port, the all-zero word among them; every other opcode is the
opcode of a command; OP = 0x80 is the block's own STEP_REQ and no response has it. -/
def Obligations.ReservedOpcodeIsIllegal : Prop :=
  (∀ (s : State) (c : PortWord) (others : List PortWord),
    takeNext s.runMode s.inbox = some (c, others) → s.runMode ≠ .faulted →
    (opField c.word).toNat = 0 ∨ (0x0A ≤ (opField c.word).toNat ∧ (opField c.word).toNat ≤ 0x7F) ∨
      (opField c.word).toNat = 0x80 ∨ 0x85 ≤ (opField c.word).toNat →
    step s = .next (illegal { s with inbox := others } c.port)) ∧
  (∀ op : Byte, (1 ≤ op.toNat ∧ op.toNat ≤ 9) ∨ (0x81 ≤ op.toNat ∧ op.toNat ≤ 0x84) →
    ∃ i : Instr, opField (encode i) = op) ∧
  opField 0#64 = 0x00#8 ∧ opField stepReqWord = 0x80#8 ∧
  ∀ (k : RespKind) (v : BitVec 32), opField (responseWord k v) ≠ 0x80#8

/-- R54: a field that the command's format does not use must be zero, or the word is ILLEGAL_COMMAND and not executed. -/
def Obligations.UnusedFieldIsIllegal : Prop :=
  ∀ (s : State) (c : PortWord) (others : List PortWord) (m : Mnemonic),
    takeNext s.runMode s.inbox = some (c, others) → s.runMode ≠ .faulted →
    opField c.word = m.opcode → m.port = c.port →
    (m.format.usesD = false ∧ dField c.word ≠ 0#8) ∨ (m.format.usesA = false ∧ aField c.word ≠ 0#16) ∨
      (m.format.usesN = false ∧ nField c.word ≠ 0#32) →
    step s = .next (illegal { s with inbox := others } c.port)

/-- A step that takes a word of a command is the command, on the state without that word. -/
def Obligations.StepRunsDecoded : Prop :=
  ∀ (s : State) (c : PortWord) (others : List PortWord) (i : Instr),
    takeNext s.runMode s.inbox = some (c, others) → decode c.port c.word = .ok i →
    step s = exec i { s with inbox := others }

/-- R56: which word is accepted. While RUNNING the host port holds, and the first CPU-port word is decoded; while IDLE the
first word is taken, and is ILLEGAL_COMMAND if it came to the CPU port; while FAULTED both ports answer as R100 says. That the
waiting words stand in one list, so that the first of either port is taken while IDLE and while FAULTED, is the model's
choice (assumption log entry 1), and so is a step that leaves the state as it is (entry 3). -/
def Obligations.Acceptance : Prop :=
  ∀ s : State,
    (∀ (held : List PortWord) (c : PortWord) (rest : List PortWord),
      s.runMode.isRunning = true → (∀ h ∈ held, h.port = .host) → c.port = .cpu → s.inbox = held ++ c :: rest →
      (∀ i, decode .cpu c.word = .ok i → step s = exec i { s with inbox := held ++ rest }) ∧
      (∀ e, decode .cpu c.word = .error e → step s = .next (stoppedFrame { s with inbox := held ++ rest } 0x01#8))) ∧
    (s.runMode.isRunning = true → (∀ h ∈ s.inbox, h.port = .host) → step s = .next s) ∧
    (∀ (c : PortWord) (rest : List PortWord), s.runMode = .idle → s.inbox = c :: rest →
      (c.port = .host → ∀ i, decode .host c.word = .ok i → step s = exec i { s with inbox := rest }) ∧
      (c.port = .cpu → step s = .next (stopped { s with inbox := rest } .cpu 0x01#8))) ∧
    (∀ (c : PortWord) (rest : List PortWord), s.runMode = .faulted → s.inbox = c :: rest →
      step s = .next (if c.port = .host ∧ c.word = 0x0900000000000000#64
        then answered { s with inbox := rest } .host .value (statusRegister s)
        else answered { s with inbox := rest } c.port .refused (s.faultCode.setWidth 32)))

/-- R57: the layout of a response word, RKIND in 63:56, 0 in 55:32 and RVAL in 31:0; and every word a step takes gets
exactly one response on its port, where the response of a host command that starts a frame is owed until the frame ends.
The responses are counted in the model's record of them (assumption log entry 2). -/
def Obligations.OneResponse : Prop :=
  (∀ (p : Port) (k : RespKind) (v : BitVec 32),
    (said p k v).port = p ∧
    (said p k v).word.extractLsb' 56 8 =
      (match k with | .done => 0x00#8 | .value => 0x01#8 | .refused => 0xFE#8 | .fault => 0xFF#8) ∧
    (said p k v).word.extractLsb' 32 24 = 0#24 ∧ (said p k v).word.extractLsb' 0 32 = v) ∧
  ∀ (s t : State) (c : PortWord) (others : List PortWord),
    takeNext s.runMode s.inbox = some (c, others) → step s = .next t →
    responses .host t + owedToHost t = responses .host s + owedToHost s + (if c.port = .host then 1 else 0) ∧
    responses .cpu t = responses .cpu s + (if c.port = .cpu then 1 else 0)

/-- While RUNNING exactly one CPU step is outstanding: a step request is sent exactly when a frame starts RUNNING and when
CPU_STEP_END leaves it RUNNING. The requests are counted in the model's record of them (assumption log entry 2). -/
def Obligations.OneStepOutstanding : Prop :=
  ∀ s t : State, step s = .next t →
    (t.runMode.isRunning = true ∧ (s.runMode.isRunning = false ∨ Runs s .cpuStepEnd) →
      stepRequests t = stepRequests s + 1 ∧ t.stepAcc = 0#32) ∧
    (¬ (t.runMode.isRunning = true ∧ (s.runMode.isRunning = false ∨ Runs s .cpuStepEnd)) →
      stepRequests t = stepRequests s)

/-- R61: the expansions of LOAD, FILL, DUMP and FRAME, for operands that fit their fields. Of DUMP the spec does not say
that its addresses wrap, so nothing is said here of an address beyond 0xFFFF (assumption log entry 15). -/
def Obligations.PseudoCommands : Prop :=
  (∀ (addr : Nat) (bytes : List Nat), addr < 65536 → bytes ≠ [] → (∀ b ∈ bytes, b < 256) →
    ∃ ws : List PortWord, Source.words .host (.load addr bytes) = some ws ∧ ws.length = bytes.length ∧
      ∀ k b, bytes[k]? = some b →
        ws[k]? = some (issued .host (.memWr (BitVec.ofNat 16 (addr + k)) (BitVec.ofNat 8 b)))) ∧
  (∀ addr n v : Nat, addr < 65536 → v < 256 →
    ∃ ws : List PortWord, Source.words .host (.fill addr n v) = some ws ∧ ws.length = n ∧
      ∀ k, k < n → ws[k]? = some (issued .host (.memWr (BitVec.ofNat 16 (addr + k)) (BitVec.ofNat 8 v)))) ∧
  (∀ addr n : Nat, addr < 65536 →
    ∃ ws : List PortWord, Source.words .host (.dump addr n) = some ws ∧ ws.length = n ∧
      ∀ k, k < n → addr + k < 65536 → ws[k]? = some (issued .host (.memRd (BitVec.ofNat 16 (addr + k))))) ∧
  Source.words .host .frame = some [issued .host .execFrame]

/-! ### Store access (40_store_access.md) -/

/-- R63: MEM_RD. Of a cell never written since reset it answers INIT_MEMORY, however long the block has run. -/
def Obligations.MemRd : Prop :=
  ∀ addr : Addr,
    encode (.memRd addr) = 0x01#8 ++ 0x00#8 ++ addr ++ 0x00000000#32 ∧
    (∀ d n, d ≠ 0#8 ∨ n ≠ 0#32 → UnusedIllegal .host 0x01#8 d addr n) ∧
    (∀ s : State, s.runMode = .idle →
      exec (.memRd addr) s = .next (answered s .host .value ((s.mem.read addr).setWidth 32))) ∧
    (∀ s : State, Unwritten addr s → s.mem.read addr = Config.initMemory addr ∧ (s.runMode = .idle →
      exec (.memRd addr) s = .next (answered s .host .value ((Config.initMemory addr).setWidth 32)))) ∧
    HostGate (.memRd addr)

/-- R64: MEM_WR, every other byte of memory unchanged. -/
def Obligations.MemWr : Prop :=
  ∀ (addr : Addr) (data : Byte),
    encode (.memWr addr data) = 0x02#8 ++ data ++ addr ++ 0x00000000#32 ∧
    (∀ n, n ≠ 0#32 → UnusedIllegal .host 0x02#8 data addr n) ∧
    (∀ s : State, s.runMode = .idle → ∃ t,
      exec (.memWr addr data) s = .next (answered { s with mem := t } .host .done 0#32) ∧
      ∀ a : Addr, t.read a = if a = addr then data else s.mem.read a) ∧
    HostGate (.memWr addr data)

/-- R65: CPU_RD. -/
def Obligations.CpuRd : Prop :=
  ∀ addr : Addr,
    encode (.cpuRd addr) = 0x81#8 ++ 0x00#8 ++ addr ++ 0x00000000#32 ∧
    (∀ d n, d ≠ 0#8 ∨ n ≠ 0#32 → UnusedIllegal .cpu 0x81#8 d addr n) ∧
    (∀ s : State, s.runMode.isRunning = true →
      exec (.cpuRd addr) s = .next (answered s .cpu .value ((s.mem.read addr).setWidth 32))) ∧
    CpuGate (.cpuRd addr)

/-- R66: CPU_WR, every other byte of memory unchanged. -/
def Obligations.CpuWr : Prop :=
  ∀ (addr : Addr) (data : Byte),
    encode (.cpuWr addr data) = 0x82#8 ++ data ++ addr ++ 0x00000000#32 ∧
    (∀ n, n ≠ 0#32 → UnusedIllegal .cpu 0x82#8 data addr n) ∧
    (∀ s : State, s.runMode.isRunning = true → ∃ t,
      exec (.cpuWr addr data) s = .next (answered { s with mem := t } .cpu .done 0#32) ∧
      ∀ a : Addr, t.read a = if a = addr then data else s.mem.read a) ∧
    CpuGate (.cpuWr addr data)

/-- A byte of memory changes in a step only if the step runs MEM_WR while IDLE or CPU_WR while RUNNING, of that address and
of the byte read afterwards. -/
def Obligations.MemoryWriters : Prop :=
  ∀ (s t : State) (a : Addr), step s = .next t → t.mem.read a ≠ s.mem.read a →
    (s.runMode = .idle ∧ Runs s (.memWr a (t.mem.read a))) ∨
    (s.runMode.isRunning = true ∧ Runs s (.cpuWr a (t.mem.read a)))

/-- Canonical memories that read the same at every address are the same data (the model's form of memory: assumption
log entry 6). -/
def Obligations.CanonicalMemory : Prop :=
  ∀ m m' : Memory, m.wf → m'.wf → (∀ a : Addr, m.read a = m'.read a) → m = m'

/-! ### The synchronizer (41_cycle_sync.md) -/

/-- R68: TICK_ADV. -/
def Obligations.TickAdv : Prop :=
  ∀ amount : Tick,
    encode (.tickAdv amount) = 0x03#8 ++ 0x00#8 ++ 0x0000#16 ++ amount ∧
    (∀ d a, d ≠ 0#8 ∨ a ≠ 0#16 → UnusedIllegal .host 0x03#8 d a amount) ∧
    (∀ s : State, s.runMode = .idle → s.ticks.toNat + amount.toNat < 2 ^ 32 → ∃ t : Tick,
      t.toNat = s.ticks.toNat + amount.toNat ∧
      exec (.tickAdv amount) s = .next (answered { s with ticks := t } .host .done 0#32)) ∧
    (∀ s : State, s.runMode = .idle → 2 ^ 32 ≤ s.ticks.toNat + amount.toNat →
      exec (.tickAdv amount) s = .next (stopped s .host 0x03#8)) ∧
    HostGate (.tickAdv amount)

/-- R69: TICK_RD. -/
def Obligations.TickRd : Prop :=
  encode .tickRd = 0x04#8 ++ 0x00#8 ++ 0x0000#16 ++ 0x00000000#32 ∧
  (∀ d a n, d ≠ 0#8 ∨ a ≠ 0#16 ∨ n ≠ 0#32 → UnusedIllegal .host 0x04#8 d a n) ∧
  (∀ s : State, s.runMode = .idle → exec .tickRd s = .next (answered s .host .value s.ticks)) ∧
  exec .tickRd State.reset = .next (answered State.reset .host .value 0#32) ∧
  HostGate .tickRd

/-- R70: CPU_ADV. The sum in STEP_ACC does not wrap in any state with the invariant. -/
def Obligations.CpuAdv : Prop :=
  ∀ amount : Tick,
    encode (.cpuAdv amount) = 0x83#8 ++ 0x00#8 ++ 0x0000#16 ++ amount ∧
    (∀ d a, d ≠ 0#8 ∨ a ≠ 0#16 → UnusedIllegal .cpu 0x83#8 d a amount) ∧
    (∀ s : State, s.runMode.isRunning = true → s.ticks.toNat + amount.toNat < 2 ^ 32 → ∃ t : Tick,
      t.toNat = s.ticks.toNat + amount.toNat ∧
      exec (.cpuAdv amount) s =
        .next (answered { s with ticks := t, stepAcc := s.stepAcc + amount } .cpu .done 0#32) ∧
      (Inv s → (s.stepAcc + amount).toNat = s.stepAcc.toNat + amount.toNat)) ∧
    (∀ s : State, s.runMode.isRunning = true → 2 ^ 32 ≤ s.ticks.toNat + amount.toNat →
      exec (.cpuAdv amount) s = .next (stoppedFrame s 0x03#8)) ∧
    CpuGate (.cpuAdv amount)

/-- R71: end_frame subtracts FRAME_TICKS exactly once, goes to IDLE, renders if asked, and answers the host DONE. -/
def Obligations.EndFrame : Prop :=
  ∀ (F : Tick) (renderAfter : Bool) (s : State), F.toNat ≤ s.ticks.toNat → ∃ t : Tick,
    t.toNat = s.ticks.toNat - F.toNat ∧
    endFrame F renderAfter s =
      { s with
        ticks := t, runMode := .idle
        fb := if renderAfter then frameOf s.mem else s.fb
        fbValid := renderAfter || s.fbValid
        sent := s.sent ++ [said .host .done 0#32] }

/-- R72: RUN_FRAME. At or above the boundary no step is requested and FRAME_TICKS is subtracted once (R76); below it the
first step is requested and the response is deferred. -/
def Obligations.RunFrame : Prop :=
  encode .runFrame = 0x05#8 ++ 0x00#8 ++ 0x0000#16 ++ 0x00000000#32 ∧
  (∀ d a n, d ≠ 0#8 ∨ a ≠ 0#16 ∨ n ≠ 0#32 → UnusedIllegal .host 0x05#8 d a n) ∧
  (∀ s : State, s.runMode = .idle → Config.frameTicks.toNat ≤ s.ticks.toNat → ∃ t : Tick,
    t.toNat = s.ticks.toNat - Config.frameTicks.toNat ∧
    exec .runFrame s = .next (answered { s with ticks := t } .host .done 0#32)) ∧
  (∀ s : State, s.runMode = .idle → s.ticks.toNat < Config.frameTicks.toNat →
    exec .runFrame s =
      .next { s with runMode := .running false, stepAcc := 0#32, sent := s.sent ++ [stepRequest] }) ∧
  HostGate .runFrame

/-- R73: CPU_STEP_END. -/
def Obligations.CpuStepEnd : Prop :=
  encode .cpuStepEnd = 0x84#8 ++ 0x00#8 ++ 0x0000#16 ++ 0x00000000#32 ∧
  (∀ d a n, d ≠ 0#8 ∨ a ≠ 0#16 ∨ n ≠ 0#32 → UnusedIllegal .cpu 0x84#8 d a n) ∧
  (∀ s : State, s.runMode.isRunning = true → s.stepAcc = 0#32 →
    exec .cpuStepEnd s = .next (stoppedFrame s 0x02#8)) ∧
  (∀ (s : State) (m : Bool), s.runMode = .running m → s.stepAcc ≠ 0#32 →
    s.ticks.toNat < Config.frameTicks.toNat →
    exec .cpuStepEnd s =
      .next { s with stepAcc := 0#32, sent := s.sent ++ [said .cpu .done 0#32, stepRequest] }) ∧
  (∀ (s : State) (m : Bool), s.runMode = .running m → s.stepAcc ≠ 0#32 →
    Config.frameTicks.toNat ≤ s.ticks.toNat → ∃ t : Tick,
      t.toNat = s.ticks.toNat - Config.frameTicks.toNat ∧
      exec .cpuStepEnd s =
        .next { s with
          ticks := t, runMode := .idle
          fb := if m then frameOf s.mem else s.fb
          fbValid := m || s.fbValid
          sent := s.sent ++ [said .cpu .done 0#32, said .host .done 0#32] }) ∧
  CpuGate .cpuStepEnd

/-- R74: the carry-over law, for RUN_FRAME and EXEC_FRAME and every sequence of steps of positive totals. While the sum
stays below FRAME_TICKS the frame runs on; at the first step whose sum reaches it the frame ends, TICKS holds the surplus,
and after EXEC_FRAME the frame buffer shows every write of the frame. -/
def Obligations.CarryOver : Prop :=
  ∀ (s : State) (renderAfter : Bool) (steps : List (List Instr)),
    s.runMode = .idle → s.ticks.toNat < Config.frameTicks.toNat → (∀ body ∈ steps, StepOk body) →
    (s.ticks.toNat + stepsTotal steps < Config.frameTicks.toNat → ∃ t,
      runAll (frameCommand renderAfter :: stepCommands steps) s = .next t ∧
      t.runMode = .running renderAfter ∧ t.ticks.toNat = s.ticks.toNat + stepsTotal steps ∧ t.stepAcc = 0#32) ∧
    (∀ last : List Instr, StepOk last → s.ticks.toNat + stepsTotal steps < Config.frameTicks.toNat →
      Config.frameTicks.toNat ≤ s.ticks.toNat + stepsTotal steps + stepTotal last →
      s.ticks.toNat + stepsTotal steps + stepTotal last < 2 ^ 32 → ∃ t,
        runAll (frameCommand renderAfter :: stepCommands (steps ++ [last])) s = .next t ∧
        t.runMode = .idle ∧
        t.ticks.toNat = s.ticks.toNat + stepsTotal steps + stepTotal last - Config.frameTicks.toNat ∧
        (renderAfter = true → t.fbValid = true ∧ t.fb = frameOf t.mem) ∧
        (renderAfter = false → t.fbValid = s.fbValid ∧ t.fb = s.fb))

/-- R75: after a frame that a CPU step ends, TICKS is below that step's total, and below FRAME_TICKS where the total is at
most FRAME_TICKS. -/
def Obligations.PostBoundaryBound : Prop :=
  ∀ s t : State, Inv s → s.runMode.isRunning = true → exec .cpuStepEnd s = .next t → t.runMode = .idle →
    t.ticks.toNat < s.stepAcc.toNat ∧
    (s.stepAcc.toNat ≤ Config.frameTicks.toNat → t.ticks.toNat < Config.frameTicks.toNat)

/-- R77: of a frame that starts at t0 below FRAME_TICKS, fewer than FRAME_TICKS - t0 whole steps leave it RUNNING, and
one that has ended took at most FRAME_TICKS - t0 of them. -/
def Obligations.FrameStepsBounded : Prop :=
  ∀ (s t : State) (renderAfter : Bool) (steps : List (List Instr)),
    s.runMode = .idle → s.ticks.toNat < Config.frameTicks.toNat →
    (∀ body ∈ steps, body.all isStepCommand = true) →
    runAll (frameCommand renderAfter :: stepCommands steps) s = .next t →
    (t.runMode.isRunning = true → steps.length < Config.frameTicks.toNat - s.ticks.toNat) ∧
    (t.runMode = .idle → steps.length ≤ Config.frameTicks.toNat - s.ticks.toNat)

/-- R78: the synchronizer's commands read no memory and no frame buffer. -/
def Obligations.SyncIndependent : Prop :=
  ∀ (i : Instr) (s s' t t' : State),
    ((∃ x, i = .tickAdv x) ∨ i = .tickRd ∨ i = .runFrame ∨ i = .execFrame ∨ (∃ x, i = .cpuAdv x) ∨ i = .cpuStepEnd) →
    s.ticks = s'.ticks → s.runMode = s'.runMode → s.stepAcc = s'.stepAcc → s.faultCode = s'.faultCode →
    exec i s = .next t → exec i s' = .next t' →
    t.ticks = t'.ticks ∧ t.runMode = t'.runMode ∧ t.stepAcc = t'.stepAcc ∧ t.faultCode = t'.faultCode ∧
    ∃ new, t.sent = s.sent ++ new ∧ t'.sent = s'.sent ++ new

/-- R18: what changes TICKS in a step: an advance adds its amount, and a frame boundary subtracts FRAME_TICKS once. -/
def Obligations.TicksWriters : Prop :=
  ∀ s t : State, step s = .next t → t.ticks ≠ s.ticks →
    (∃ x : Tick, (Runs s (.tickAdv x) ∨ Runs s (.cpuAdv x)) ∧ t.ticks.toNat = s.ticks.toNat + x.toNat) ∨
    ((Runs s .runFrame ∨ Runs s .execFrame ∨ Runs s .cpuStepEnd) ∧ t.runMode = .idle ∧
      t.ticks.toNat + Config.frameTicks.toNat = s.ticks.toNat)

/-! ### The renderer (42_frame_renderer.md) -/

/-- R81: ink is black, paper is white, and the brightness flag is never set. -/
def Obligations.ColourTable : Prop :=
  nib true = pixelBlack ∧ nib false = pixelWhite ∧ pixelBlack = 0x0#4 ∧ pixelWhite = 0x7#4 ∧
  (∀ bit : Bool, (nib bit).getLsbD 3 = false) ∧
  ∀ (s : State) (r c k : Nat), r < 280 → c < 44 → k < 8 →
    (fbChunk (renderFrame s).fb r c).getLsbD (4 * k + 3) = false

/-- R83: pixel k of a chunk is the pixel of bit 7 - k of its byte. -/
def Obligations.Serializer : Prop :=
  ∀ (b : Byte) (k : Nat), k < 8 → (chunk b).extractLsb' (28 - 4 * k) 4 = nib (b.getLsbD (7 - k))

/-- R84: the closed form of the serializer, its worked values, and that it is injective. -/
def Obligations.SerializerClosedForm : Prop :=
  (∀ b : Byte, chunk b = whiteChunk &&& ~~~ spread b) ∧
  chunk 0x00#8 = 0x77777777#32 ∧ chunk 0xFF#8 = 0x00000000#32 ∧ chunk 0xB0#8 = 0x07007777#32 ∧
  ∀ b b' : Byte, chunk b = chunk b' → b = b'

/-- R86: the closed form of the line-address sequence. -/
def Obligations.LineAddressClosedForm : Prop :=
  lineAddr 0 = 0x4000#16 ∧ (∀ i, lineAddr (i + 1) = lineStep (lineAddr i)) ∧
  (∀ i, i < 192 → (lineAddr i).toNat = lineAddrClosed i ∧ (lineAddr i).toNat % 32 = 0) ∧
  lineStep (lineAddr 191) = 0x5800#16

/-- R87: the wrap points. -/
def Obligations.WrapPoints : Prop :=
  lineAddr 64 = 0x4800#16 ∧ lineAddr 128 = 0x5000#16 ∧
  ∀ i, i < 191 →
    (i % 8 ≠ 7 → lineAddr (i + 1) = lineAddr i + 0x100#16) ∧
    (i % 8 = 7 ∧ i % 64 ≠ 63 → lineAddr (i + 1) = lineAddr i + 0x100#16 + 0x20#16 - 0x800#16) ∧
    (i % 64 = 63 → lineAddr (i + 1) = lineAddr i + 0x100#16 + 0x20#16 - 0x100#16)

/-- R88: the screen addresses and their inverse, a bijection between {0..191} x {0..31} and 0x4000..0x57FF, and where the
byte of each address is shown. -/
def Obligations.ScreenBijection : Prop :=
  (∀ i j, i < 192 → j < 32 →
    lineAddr i + BitVec.ofNat 16 j = screenAddr i j ∧ inScreen (screenAddr i j) ∧
    lineOf (screenAddr i j) = i ∧ columnOf (screenAddr i j) = j) ∧
  ∀ a : Addr, inScreen a →
    lineOf a < 192 ∧ columnOf a < 32 ∧ screenAddr (lineOf a) (columnOf a) = a ∧
    ∀ s : State, fbChunk (renderFrame s).fb (48 + lineOf a) (6 + columnOf a) = chunk (s.mem.read a)

/-- R82: every border chunk of a rendered frame is WHITE, whatever memory and the frame buffer held. -/
def Obligations.BorderInvariance : Prop :=
  ∀ (s : State) (r c : Nat), isBorder r c → fbChunk (renderFrame s).fb r c = whiteChunk

/-- R89: the rows of the active display. -/
def Obligations.ActiveRow : Prop :=
  ∀ (s : State) (i : Nat), i < 192 →
    (∀ c, c < 6 ∨ (38 ≤ c ∧ c < 44) → fbChunk (renderFrame s).fb (48 + i) c = whiteChunk) ∧
    ∀ j, j < 32 →
      fbChunk (renderFrame s).fb (48 + i) (6 + j) = chunk (s.mem.read (lineAddr i + BitVec.ofNat 16 j))

/-- R90: the frame depends on the bytes of 0x4000..0x57FF and on nothing else of the state. -/
def Obligations.FrameDependsOnScreenOnly : Prop :=
  ∀ s s' : State, (∀ a : Addr, inScreen a → s.mem.read a = s'.mem.read a) →
    (renderFrame s).fb = (renderFrame s').fb

/-- R91: after the render procedure FB = frame(Mem) and FB_VALID = 1, and nothing else has changed. -/
def Obligations.RenderIsFrame : Prop :=
  ∀ s : State, renderFrame s = { s with fb := frameOf s.mem, fbValid := true }

/-- R92: RENDER. -/
def Obligations.Render : Prop :=
  encode .render = 0x06#8 ++ 0x00#8 ++ 0x0000#16 ++ 0x00000000#32 ∧
  (∀ d a n, d ≠ 0#8 ∨ a ≠ 0#16 ∨ n ≠ 0#32 → UnusedIllegal .host 0x06#8 d a n) ∧
  (∀ s : State, s.runMode = .idle →
    exec .render s = .next (answered { s with fb := frameOf s.mem, fbValid := true } .host .done 0#32)) ∧
  HostGate .render

/-- R93: EXEC_FRAME. At or above the boundary the frame ends at once, with a render; below it the first step is requested.
A fault during the frame leaves FB and FB_VALID as they were; a frame that ends without one is rendered. -/
def Obligations.ExecFrame : Prop :=
  encode .execFrame = 0x07#8 ++ 0x00#8 ++ 0x0000#16 ++ 0x00000000#32 ∧
  (∀ d a n, d ≠ 0#8 ∨ a ≠ 0#16 ∨ n ≠ 0#32 → UnusedIllegal .host 0x07#8 d a n) ∧
  (∀ s : State, s.runMode = .idle → Config.frameTicks.toNat ≤ s.ticks.toNat → ∃ t : Tick,
    t.toNat = s.ticks.toNat - Config.frameTicks.toNat ∧
    exec .execFrame s =
      .next (answered { s with ticks := t, fb := frameOf s.mem, fbValid := true } .host .done 0#32)) ∧
  (∀ s : State, s.runMode = .idle → s.ticks.toNat < Config.frameTicks.toNat →
    exec .execFrame s =
      .next { s with runMode := .running true, stepAcc := 0#32, sent := s.sent ++ [stepRequest] }) ∧
  (∀ s t : State, s.runMode = .running true → step s = .next t → t.runMode = .faulted →
    t.fb = s.fb ∧ t.fbValid = s.fbValid) ∧
  (∀ s t : State, s.runMode = .running true → step s = .next t → t.runMode = .idle →
    t.fb = frameOf t.mem ∧ t.fbValid = true) ∧
  HostGate .execFrame

/-- R94: FB_RD. The range is checked before validity, and an index is never clamped or wrapped. -/
def Obligations.FbRd : Prop :=
  ∀ (row : BitVec 16) (col : BitVec 32),
    encode (.fbRd row col) = 0x08#8 ++ 0x00#8 ++ row ++ col ∧
    (∀ d, d ≠ 0#8 → UnusedIllegal .host 0x08#8 d row col) ∧
    (∀ s : State, s.runMode = .idle → 280 ≤ row.toNat ∨ 44 ≤ col.toNat →
      exec (.fbRd row col) s = .next (stopped s .host 0x05#8)) ∧
    (∀ s : State, s.runMode = .idle → row.toNat < 280 → col.toNat < 44 → s.fbValid = false →
      exec (.fbRd row col) s = .next (stopped s .host 0x04#8)) ∧
    (∀ (s : State) (hr : row.toNat < 280) (hc : col.toNat < 44), s.runMode = .idle → s.fbValid = true →
      exec (.fbRd row col) s = .next (answered s .host .value s.fb[row.toNat][col.toNat])) ∧
    HostGate (.fbRd row col)

/-- FB and FB_VALID change in a step only if the step renders: it runs RENDER or EXEC_FRAME, or the CPU_STEP_END that ends
an EXEC_FRAME; FB is then whole, and a snapshot of memory at that moment. -/
def Obligations.FrameBufferWriters : Prop :=
  ∀ s t : State, step s = .next t → t.fb ≠ s.fb ∨ t.fbValid ≠ s.fbValid →
    (Runs s .render ∨ Runs s .execFrame ∨ (Runs s .cpuStepEnd ∧ s.runMode = .running true)) ∧
    t.runMode = .idle ∧ t.mem = s.mem ∧ t.fb = frameOf s.mem ∧ t.fbValid = true

/-! ### Status (43_status.md, 10_state.md) -/

/-- R21: the fields of STATUS. -/
def Obligations.StatusFields : Prop :=
  ∀ s : State,
    (statusRegister s).extractLsb' 0 2 =
      (match s.runMode with | .idle => 0#2 | .running _ => 1#2 | .faulted => 2#2) ∧
    (statusRegister s).getLsbD 2 = s.fbValid ∧
    (statusRegister s).extractLsb' 3 5 = 0#5 ∧
    (statusRegister s).extractLsb' 8 8 = s.faultCode ∧
    (statusRegister s).extractLsb' 16 16 = 0#16

/-- R95: STATUS_RD, answered while IDLE and while FAULTED. -/
def Obligations.StatusRd : Prop :=
  encode .statusRd = 0x09#8 ++ 0x00#8 ++ 0x0000#16 ++ 0x00000000#32 ∧
  (∀ d a n, d ≠ 0#8 ∨ a ≠ 0#16 ∨ n ≠ 0#32 → UnusedIllegal .host 0x09#8 d a n) ∧
  (∀ s : State, s.runMode.isRunning = false →
    exec .statusRd s = .next (answered s .host .value
      (s.faultCode.setWidth 32 <<< 8 ||| (if s.fbValid then 0x4#32 else 0x0#32) |||
        (if s.runMode = .faulted then 0x2#32 else 0x0#32))))

/-! ### Faults (60_exceptions.md) -/

/-- R96: a fault is precise: the step that faults leaves Mem, TICKS, STEP_ACC, FB and FB_VALID as they were. -/
def Obligations.FaultsArePrecise : Prop :=
  ∀ s t : State, step s = .next t → s.runMode ≠ .faulted → t.runMode = .faulted →
    t.mem = s.mem ∧ t.ticks = s.ticks ∧ t.stepAcc = s.stepAcc ∧ t.fb = s.fb ∧ t.fbValid = s.fbValid

/-- R97: the fault codes, each with its only cause and raised by it; 0x06, 0x07 and the codes above are never produced. -/
def Obligations.FaultCauses : Prop :=
  ∀ s t : State, step s = .next t → s.runMode ≠ .faulted →
    (t.runMode = .faulted → 1 ≤ t.faultCode.toNat ∧ t.faultCode.toNat ≤ 5) ∧
    (t.runMode = .faulted ∧ t.faultCode = 0x01#8 ↔ ∃ c others, takeNext s.runMode s.inbox = some (c, others) ∧
      ((∃ e, decode c.port c.word = .error e) ∨ (c.port = .cpu ∧ s.runMode = .idle))) ∧
    (t.runMode = .faulted ∧ t.faultCode = 0x02#8 ↔
      Runs s .cpuStepEnd ∧ s.runMode.isRunning = true ∧ s.stepAcc = 0#32) ∧
    (t.runMode = .faulted ∧ t.faultCode = 0x03#8 ↔ ∃ x : Tick,
      (Runs s (.tickAdv x) ∨ (Runs s (.cpuAdv x) ∧ s.runMode.isRunning = true)) ∧
        2 ^ 32 ≤ s.ticks.toNat + x.toNat) ∧
    (t.runMode = .faulted ∧ t.faultCode = 0x04#8 ↔ s.fbValid = false ∧ ∃ row col, Runs s (.fbRd row col) ∧
      row.toNat < 280 ∧ col.toNat < 44) ∧
    (t.runMode = .faulted ∧ t.faultCode = 0x05#8 ↔ ∃ row col, Runs s (.fbRd row col) ∧
      (280 ≤ row.toNat ∨ 44 ≤ col.toNat))

/-- R98: fault entry, which writes FAULT_CODE and RUN_MODE and answers FAULT on the port of the command; during a frame the
host's command ends after it (R99). -/
def Obligations.FaultEntry : Prop :=
  (∀ (p : Port) (f : BlockFault) (s : State), s.runMode.isRunning = false →
    raise p f s =
      { s with
        faultCode := f.code, runMode := .faulted
        sent := s.sent ++ [said p .fault (f.code.setWidth 32)] }) ∧
  (∀ (f : BlockFault) (s : State), s.runMode.isRunning = true →
    raise .cpu f s =
      { s with
        faultCode := f.code, runMode := .faulted
        sent := s.sent ++ [said .cpu .fault (f.code.setWidth 32), said .host .fault (f.code.setWidth 32)] })

/-- R99: a fault during a frame is answered to the CPU collaborator and then ends the host's command; no step is requested
and nothing is rendered. -/
def Obligations.FaultDuringFrame : Prop :=
  ∀ s t : State, s.runMode.isRunning = true → step s = .next t → t.runMode = .faulted →
    ∃ c others, takeNext s.runMode s.inbox = some (c, others) ∧ c.port = .cpu ∧
      t = stoppedFrame { s with inbox := others } t.faultCode

/-- R100: in FAULTED the word 0x0900000000000000 on the host port reads STATUS, and every other word of either port is
REFUSED; nothing else changes. That the first waiting word of either port is taken is the model's choice (assumption log
entry 1), and so is a step that leaves the state as it is (entry 3). -/
def Obligations.FaultedState : Prop :=
  ∀ s : State, s.runMode = .faulted →
    (s.inbox = [] → step s = .next s) ∧
    ∀ (c : PortWord) (rest : List PortWord), s.inbox = c :: rest →
      (c.port = .host ∧ c.word = 0x0900000000000000#64 →
        step s = .next (answered { s with inbox := rest } .host .value (statusRegister s))) ∧
      (¬ (c.port = .host ∧ c.word = 0x0900000000000000#64) →
        step s = .next (answered { s with inbox := rest } c.port .refused (s.faultCode.setWidth 32)))

/-- R22: FAULT_CODE is 0 until the first fault, and the one step that writes it moves RUN_MODE to FAULTED. -/
def Obligations.FaultCodeWrittenOnce : Prop :=
  State.reset.faultCode = 0#8 ∧
  ∀ s t : State, Inv s → step s = .next t → t.faultCode ≠ s.faultCode →
    s.faultCode = 0#8 ∧ s.runMode ≠ .faulted ∧ t.runMode = .faulted

/-! ### Reset and whole-machine rules (70_reset_and_hazards.md, 10_state.md) -/

/-- R111: the state after reset. The frame buffer holds no value there: every FB_RD of it faults. -/
def Obligations.ResetState : Prop :=
  (∀ a : Addr, State.reset.mem.read a = Config.initMemory a) ∧
  State.reset.ticks = 0#32 ∧ State.reset.runMode = .idle ∧ State.reset.stepAcc = 0#32 ∧
  State.reset.fbValid = false ∧ State.reset.faultCode = 0#8 ∧ statusRegister State.reset = 0#32 ∧
  ∀ row col, row.toNat < 280 → col.toNat < 44 →
    exec (.fbRd row col) State.reset = .next (stopped State.reset .host 0x04#8)

/-- The invariant holds after reset. Its clause on the canonical form of memory is about the model's form (assumption log
entry 6). -/
def Obligations.InvReset : Prop := Inv State.reset

/-- Every step keeps the invariant, whose clause on the canonical form of memory is about the model's form (assumption log
entry 6). -/
def Obligations.StepKeepsInv : Prop := ∀ s t : State, Inv s → step s = .next t → Inv t

/-- No step ends in a fault or a refusal of the model: every fault of the spec is a state the block goes to (assumption log
entry 9). -/
def Obligations.StepAlwaysNext : Prop := ∀ s : State, ∃ t, step s = .next t

/-- R12: the build-time check, which the fixed geometry passes. -/
def Obligations.GeometryCheck : Prop :=
  Config.geometry.wellFormed = true ∧
  ∀ g : Geometry, g.wellFormed = true ↔
    g.pixelsPerChunk ∣ g.screenWidth ∧ g.pixelsPerChunk ∣ g.screenHeight ∧ g.pixelsPerChunk ∣ g.borderLeft ∧
    g.pixelsPerChunk ∣ g.borderRight ∧ g.pixelsPerChunk ∣ g.borderTop ∧ g.pixelsPerChunk ∣ g.borderBottom

/-- The host port holds while RUNNING: a step leaves the host's waiting words as they are, and a host command applied
there puts its word back in front of all that wait. That the words wait in a list is the model's choice (assumption log
entry 1), and the form of holding is its reading of R56 (entry 4). -/
def Obligations.HostPortHolds : Prop :=
  (∀ s t : State, s.runMode.isRunning = true → step s = .next t → waitingHost t = waitingHost s) ∧
  ∀ (i : Instr) (s : State), i.port = .host → s.runMode.isRunning = true →
    exec i s = .next { s with inbox := ⟨.host, encode i⟩ :: s.inbox }
end

