-- ==== Sys2Proof/Laws/Encoding.lean ====
section
/-! SUPPORT. The fields of a packed word, and the opcode map read in both directions. -/

namespace Sys2Proof.Laws

@[simp] theorem opField_packWord (op d : Byte) (a : BitVec 16) (n : BitVec 32) : opField (packWord op d a n) = op := by
  apply BitVec.eq_of_getLsbD_eq
  intro i hi
  simp only [opField, packWord, BitVec.getLsbD_extractLsb', BitVec.getLsbD_append, hi, decide_true, Bool.true_and]
  simp [show ¬ (56 + i < 32) by omega, show ¬ (56 + i - 32 < 16) by omega, show ¬ (56 + i - 32 - 16 < 8) by omega,
    show 56 + i - 32 - 16 - 8 = i by omega]

@[simp] theorem dField_packWord (op d : Byte) (a : BitVec 16) (n : BitVec 32) : dField (packWord op d a n) = d := by
  apply BitVec.eq_of_getLsbD_eq
  intro i hi
  simp only [dField, packWord, BitVec.getLsbD_extractLsb', BitVec.getLsbD_append, hi, decide_true, Bool.true_and]
  simp [show ¬ (48 + i < 32) by omega, show ¬ (48 + i - 32 < 16) by omega, show 48 + i - 32 - 16 = i by omega]
  omega

@[simp] theorem aField_packWord (op d : Byte) (a : BitVec 16) (n : BitVec 32) : aField (packWord op d a n) = a := by
  apply BitVec.eq_of_getLsbD_eq
  intro i hi
  simp only [aField, packWord, BitVec.getLsbD_extractLsb', BitVec.getLsbD_append, hi, decide_true, Bool.true_and]
  simp [show ¬ (32 + i < 32) by omega, show 32 + i - 32 = i by omega]
  omega

@[simp] theorem nField_packWord (op d : Byte) (a : BitVec 16) (n : BitVec 32) : nField (packWord op d a n) = n := by
  apply BitVec.eq_of_getLsbD_eq
  intro i hi
  simp only [nField, packWord, BitVec.getLsbD_extractLsb', BitVec.getLsbD_append, hi, decide_true, Bool.true_and]
  simp
  omega

/-- A word is its four fields (R49). -/
theorem packWord_fields (w : Word) : packWord (opField w) (dField w) (aField w) (nField w) = w := by
  apply BitVec.eq_of_getLsbD_eq
  intro i hi
  simp only [opField, dField, aField, nField, packWord, BitVec.getLsbD_extractLsb', BitVec.getLsbD_append]
  split
  · simp [*]
  · split
    · simp [*, show 32 + (i - 32) = i by omega]
    · split
      · simp [*, show 48 + (i - 32 - 16) = i by omega]
      · simp [show i - 32 - 16 - 8 < 8 by omega, show 56 + (i - 32 - 16 - 8) = i by omega]

/-- Bit 63 of a word is bit 7 of its opcode. -/
theorem getLsbD_63_packWord (op d : Byte) (a : BitVec 16) (n : BitVec 32) :
    (packWord op d a n).getLsbD 63 = op.getLsbD 7 := by
  simp only [packWord, BitVec.getLsbD_append]
  rfl

theorem mnemonicOfOpcode_opcode (m : Mnemonic) : mnemonicOfOpcode m.opcode = some m := by
  cases m <;> rfl

/-- The opcode map read by its OP column gives the row with that opcode, and nothing else (R51, R53). -/
theorem mnemonicOfOpcode_eq_some {op : Byte} {m : Mnemonic} : mnemonicOfOpcode op = some m ↔ op = m.opcode := by
  constructor
  · intro h
    apply BitVec.eq_of_toNat_eq
    unfold mnemonicOfOpcode at h
    split at h <;> first
      | (cases h; simp only [Mnemonic.opcode]; assumption)
      | cases h
  · rintro rfl
    exact mnemonicOfOpcode_opcode m

/-- `mnemonicOfOpcode` gives nothing exactly for the reserved opcodes of R53. -/
theorem mnemonicOfOpcode_eq_none {op : Byte} :
    mnemonicOfOpcode op = none ↔
      op.toNat = 0 ∨ (0x0A ≤ op.toNat ∧ op.toNat ≤ 0x80) ∨ 0x85 ≤ op.toNat := by
  revert op
  decide

/-- The encoder packs the row's opcode, and zero in every unused field (R50, R51). -/
theorem opField_encode (i : Instr) : opField (encode i) = i.mnemonic.opcode := by
  cases i <;> exact opField_packWord _ _ _ _

theorem unusedFieldsZero_encode (i : Instr) : unusedFieldsZero i.mnemonic.format (encode i) = true := by
  cases i <;> simp [unusedFieldsZero, encode, Instr.mnemonic, Mnemonic.format, Format.usesA, Format.usesD, Format.usesN]

theorem assemble_encode (i : Instr) : i.mnemonic.assemble (encode i) = i := by
  cases i <;> simp [encode, Instr.mnemonic, Mnemonic.assemble]

/-- What an accepted word is: the opcode of a row of the port, with zero in every unused field, and the instruction its
fields give (R52 to R55). -/
theorem decode_eq_ok {p : Port} {w : Word} {i : Instr} :
    decode p w = .ok i ↔
      ∃ m : Mnemonic, opField w = m.opcode ∧ m.port = p ∧ unusedFieldsZero m.format w = true ∧ i = m.assemble w := by
  unfold decode
  constructor
  · intro h
    split at h
    · cases h
    · rename_i m hm
      split at h
      · split at h
        · refine ⟨m, mnemonicOfOpcode_eq_some.mp hm, ‹_›, ‹_›, ?_⟩
          injection h with h
          exact h.symm
        · cases h
      · cases h
  · rintro ⟨m, hop, hport, hzero, rfl⟩
    simp [hop, mnemonicOfOpcode_opcode, hport, hzero]

end Sys2Proof.Laws
end

