-- ==== Sys2Proof/Laws/State.lean ====
section
/-! SUPPORT. What each shared operation does to each field of the state, one lemma a field, so that no proof unfolds a
record update. -/

namespace Sys2Proof.Machine

/-! ### `send` -/

@[simp] theorem send_mem (p : Port) (w : Word) (s : State) : (send p w s).mem = s.mem := rfl
@[simp] theorem send_ticks (p : Port) (w : Word) (s : State) : (send p w s).ticks = s.ticks := rfl
@[simp] theorem send_runMode (p : Port) (w : Word) (s : State) : (send p w s).runMode = s.runMode := rfl
@[simp] theorem send_stepAcc (p : Port) (w : Word) (s : State) : (send p w s).stepAcc = s.stepAcc := rfl
@[simp] theorem send_fb (p : Port) (w : Word) (s : State) : (send p w s).fb = s.fb := rfl
@[simp] theorem send_fbValid (p : Port) (w : Word) (s : State) : (send p w s).fbValid = s.fbValid := rfl
@[simp] theorem send_faultCode (p : Port) (w : Word) (s : State) : (send p w s).faultCode = s.faultCode := rfl
@[simp] theorem send_inbox (p : Port) (w : Word) (s : State) : (send p w s).inbox = s.inbox := rfl
@[simp] theorem send_sent (p : Port) (w : Word) (s : State) : (send p w s).sent = s.sent ++ [⟨p, w⟩] := rfl

/-! ### `respond` -/

@[simp] theorem respond_mem (p : Port) (k : RespKind) (v : BitVec 32) (s : State) : (respond p k v s).mem = s.mem :=
  rfl
@[simp] theorem respond_ticks (p : Port) (k : RespKind) (v : BitVec 32) (s : State) :
    (respond p k v s).ticks = s.ticks := rfl
@[simp] theorem respond_runMode (p : Port) (k : RespKind) (v : BitVec 32) (s : State) :
    (respond p k v s).runMode = s.runMode := rfl
@[simp] theorem respond_stepAcc (p : Port) (k : RespKind) (v : BitVec 32) (s : State) :
    (respond p k v s).stepAcc = s.stepAcc := rfl
@[simp] theorem respond_fb (p : Port) (k : RespKind) (v : BitVec 32) (s : State) : (respond p k v s).fb = s.fb := rfl
@[simp] theorem respond_fbValid (p : Port) (k : RespKind) (v : BitVec 32) (s : State) :
    (respond p k v s).fbValid = s.fbValid := rfl
@[simp] theorem respond_faultCode (p : Port) (k : RespKind) (v : BitVec 32) (s : State) :
    (respond p k v s).faultCode = s.faultCode := rfl
@[simp] theorem respond_inbox (p : Port) (k : RespKind) (v : BitVec 32) (s : State) :
    (respond p k v s).inbox = s.inbox := rfl
@[simp] theorem respond_sent (p : Port) (k : RespKind) (v : BitVec 32) (s : State) :
    (respond p k v s).sent = s.sent ++ [⟨p, responseWord k v⟩] := rfl

/-! ### `requestStep` -/

@[simp] theorem requestStep_mem (s : State) : (requestStep s).mem = s.mem := rfl
@[simp] theorem requestStep_ticks (s : State) : (requestStep s).ticks = s.ticks := rfl
@[simp] theorem requestStep_runMode (s : State) : (requestStep s).runMode = s.runMode := rfl
@[simp] theorem requestStep_stepAcc (s : State) : (requestStep s).stepAcc = 0#32 := rfl
@[simp] theorem requestStep_fb (s : State) : (requestStep s).fb = s.fb := rfl
@[simp] theorem requestStep_fbValid (s : State) : (requestStep s).fbValid = s.fbValid := rfl
@[simp] theorem requestStep_faultCode (s : State) : (requestStep s).faultCode = s.faultCode := rfl
@[simp] theorem requestStep_inbox (s : State) : (requestStep s).inbox = s.inbox := rfl
@[simp] theorem requestStep_sent (s : State) : (requestStep s).sent = s.sent ++ [⟨.cpu, stepReqWord⟩] := rfl

/-! ### `refuse` -/

@[simp] theorem refuse_mem (p : Port) (s : State) : (refuse p s).mem = s.mem := rfl
@[simp] theorem refuse_ticks (p : Port) (s : State) : (refuse p s).ticks = s.ticks := rfl
@[simp] theorem refuse_runMode (p : Port) (s : State) : (refuse p s).runMode = s.runMode := rfl
@[simp] theorem refuse_stepAcc (p : Port) (s : State) : (refuse p s).stepAcc = s.stepAcc := rfl
@[simp] theorem refuse_fb (p : Port) (s : State) : (refuse p s).fb = s.fb := rfl
@[simp] theorem refuse_fbValid (p : Port) (s : State) : (refuse p s).fbValid = s.fbValid := rfl
@[simp] theorem refuse_faultCode (p : Port) (s : State) : (refuse p s).faultCode = s.faultCode := rfl
@[simp] theorem refuse_inbox (p : Port) (s : State) : (refuse p s).inbox = s.inbox := rfl
@[simp] theorem refuse_sent (p : Port) (s : State) :
    (refuse p s).sent = s.sent ++ [⟨p, responseWord .refused (s.faultCode.setWidth 32)⟩] := rfl

/-! ### `hold` -/

@[simp] theorem hold_mem (w : Word) (s : State) : (hold w s).mem = s.mem := rfl
@[simp] theorem hold_ticks (w : Word) (s : State) : (hold w s).ticks = s.ticks := rfl
@[simp] theorem hold_runMode (w : Word) (s : State) : (hold w s).runMode = s.runMode := rfl
@[simp] theorem hold_stepAcc (w : Word) (s : State) : (hold w s).stepAcc = s.stepAcc := rfl
@[simp] theorem hold_fb (w : Word) (s : State) : (hold w s).fb = s.fb := rfl
@[simp] theorem hold_fbValid (w : Word) (s : State) : (hold w s).fbValid = s.fbValid := rfl
@[simp] theorem hold_faultCode (w : Word) (s : State) : (hold w s).faultCode = s.faultCode := rfl
@[simp] theorem hold_inbox (w : Word) (s : State) : (hold w s).inbox = ⟨.host, w⟩ :: s.inbox := rfl
@[simp] theorem hold_sent (w : Word) (s : State) : (hold w s).sent = s.sent := rfl

/-! ### `endHostCommand` -/

@[simp] theorem endHostCommand_mem (p : Port) (mode : RunMode) (f : BlockFault) (s : State) :
    (endHostCommand p mode f s).mem = s.mem := by
  cases p <;> cases mode <;> rfl
@[simp] theorem endHostCommand_ticks (p : Port) (mode : RunMode) (f : BlockFault) (s : State) :
    (endHostCommand p mode f s).ticks = s.ticks := by
  cases p <;> cases mode <;> rfl
@[simp] theorem endHostCommand_runMode (p : Port) (mode : RunMode) (f : BlockFault) (s : State) :
    (endHostCommand p mode f s).runMode = s.runMode := by
  cases p <;> cases mode <;> rfl
@[simp] theorem endHostCommand_stepAcc (p : Port) (mode : RunMode) (f : BlockFault) (s : State) :
    (endHostCommand p mode f s).stepAcc = s.stepAcc := by
  cases p <;> cases mode <;> rfl
@[simp] theorem endHostCommand_fb (p : Port) (mode : RunMode) (f : BlockFault) (s : State) :
    (endHostCommand p mode f s).fb = s.fb := by
  cases p <;> cases mode <;> rfl
@[simp] theorem endHostCommand_fbValid (p : Port) (mode : RunMode) (f : BlockFault) (s : State) :
    (endHostCommand p mode f s).fbValid = s.fbValid := by
  cases p <;> cases mode <;> rfl
@[simp] theorem endHostCommand_faultCode (p : Port) (mode : RunMode) (f : BlockFault) (s : State) :
    (endHostCommand p mode f s).faultCode = s.faultCode := by
  cases p <;> cases mode <;> rfl
@[simp] theorem endHostCommand_inbox (p : Port) (mode : RunMode) (f : BlockFault) (s : State) :
    (endHostCommand p mode f s).inbox = s.inbox := by
  cases p <;> cases mode <;> rfl

/-! ### `raise` -/

@[simp] theorem raise_mem (p : Port) (f : BlockFault) (s : State) : (raise p f s).mem = s.mem := by
  simp [raise]
@[simp] theorem raise_ticks (p : Port) (f : BlockFault) (s : State) : (raise p f s).ticks = s.ticks := by
  simp [raise]
@[simp] theorem raise_runMode (p : Port) (f : BlockFault) (s : State) : (raise p f s).runMode = .faulted := by
  simp [raise]
@[simp] theorem raise_stepAcc (p : Port) (f : BlockFault) (s : State) : (raise p f s).stepAcc = s.stepAcc := by
  simp [raise]
@[simp] theorem raise_fb (p : Port) (f : BlockFault) (s : State) : (raise p f s).fb = s.fb := by
  simp [raise]
@[simp] theorem raise_fbValid (p : Port) (f : BlockFault) (s : State) : (raise p f s).fbValid = s.fbValid := by
  simp [raise]
@[simp] theorem raise_faultCode (p : Port) (f : BlockFault) (s : State) : (raise p f s).faultCode = f.code := by
  simp [raise]
@[simp] theorem raise_inbox (p : Port) (f : BlockFault) (s : State) : (raise p f s).inbox = s.inbox := by
  simp [raise]

/-! ### `renderFrame` -/

@[simp] theorem renderFrame_mem (s : State) : (renderFrame s).mem = s.mem := rfl
@[simp] theorem renderFrame_ticks (s : State) : (renderFrame s).ticks = s.ticks := rfl
@[simp] theorem renderFrame_runMode (s : State) : (renderFrame s).runMode = s.runMode := rfl
@[simp] theorem renderFrame_stepAcc (s : State) : (renderFrame s).stepAcc = s.stepAcc := rfl
@[simp] theorem renderFrame_fb (s : State) : (renderFrame s).fb = paintFrame s.mem := rfl
@[simp] theorem renderFrame_fbValid (s : State) : (renderFrame s).fbValid = true := rfl
@[simp] theorem renderFrame_faultCode (s : State) : (renderFrame s).faultCode = s.faultCode := rfl
@[simp] theorem renderFrame_inbox (s : State) : (renderFrame s).inbox = s.inbox := rfl
@[simp] theorem renderFrame_sent (s : State) : (renderFrame s).sent = s.sent := rfl

/-! ### `presentFirst` -/

@[simp] theorem presentFirst_mem (w : Word) (s : State) : (presentFirst w s).mem = s.mem := rfl
@[simp] theorem presentFirst_ticks (w : Word) (s : State) : (presentFirst w s).ticks = s.ticks := rfl
@[simp] theorem presentFirst_runMode (w : Word) (s : State) :
    (presentFirst w s).runMode = acceptingMode (markedPort w) s.runMode := rfl
@[simp] theorem presentFirst_stepAcc (w : Word) (s : State) : (presentFirst w s).stepAcc = s.stepAcc := rfl
@[simp] theorem presentFirst_fb (w : Word) (s : State) : (presentFirst w s).fb = s.fb := rfl
@[simp] theorem presentFirst_fbValid (w : Word) (s : State) : (presentFirst w s).fbValid = s.fbValid := rfl
@[simp] theorem presentFirst_faultCode (w : Word) (s : State) : (presentFirst w s).faultCode = s.faultCode := rfl
@[simp] theorem presentFirst_inbox (w : Word) (s : State) : (presentFirst w s).inbox = ⟨markedPort w, w⟩ :: s.inbox :=
  rfl
@[simp] theorem presentFirst_sent (w : Word) (s : State) : (presentFirst w s).sent = s.sent := rfl

end Sys2Proof.Machine
end

