-- ==== Sys2Proof/Laws/Ops.lean ====
section
/-! SUPPORT. One lemma for each shared operation, which says everything it can do: fault entry, the gates of the two ports,
the synchronizer's operations, and the choice of the next word. -/

namespace Sys2Proof.Machine

/-! ### Fault entry -/

theorem raise_host (f : BlockFault) (s : State) :
    raise .host f s =
      { s with
        faultCode := f.code, runMode := .faulted
        sent := s.sent ++ [⟨.host, responseWord .fault (f.code.setWidth 32)⟩] } := rfl

theorem raise_cpu_running {s : State} {m : Bool} (h : s.runMode = .running m) (f : BlockFault) :
    raise .cpu f s =
      { s with
        faultCode := f.code, runMode := .faulted
        sent := s.sent ++ [⟨.cpu, responseWord .fault (f.code.setWidth 32)⟩,
          ⟨.host, responseWord .fault (f.code.setWidth 32)⟩] } := by
  simp [raise, endHostCommand, h, respond, send]

theorem raise_of_not_running {s : State} (h : s.runMode.isRunning = false) (p : Port) (f : BlockFault) :
    raise p f s =
      { s with
        faultCode := f.code, runMode := .faulted
        sent := s.sent ++ [⟨p, responseWord .fault (f.code.setWidth 32)⟩] } := by
  cases p
  · rfl
  · cases hm : s.runMode with
    | running m => simp [RunMode.isRunning, hm] at h
    | idle => simp [raise, endHostCommand, hm, respond, send]
    | faulted => simp [raise, endHostCommand, hm, respond, send]

/-- What a fault entry sends: one FAULT response, and a second one to the host when a frame ends with it. -/
theorem raise_sent (p : Port) (f : BlockFault) (s : State) :
    (raise p f s).sent =
      s.sent ++ ⟨p, responseWord .fault (f.code.setWidth 32)⟩ ::
        (if p = .cpu ∧ s.runMode.isRunning = true then [⟨.host, responseWord .fault (f.code.setWidth 32)⟩] else []) := by
  cases p <;> cases hm : s.runMode <;> simp [raise, endHostCommand, hm, RunMode.isRunning]

/-! ### The gates of the two ports -/

theorem onHost_idle {s : State} (h : s.runMode = .idle) (i : Instr) (effect : State → State) :
    onHost i effect s = effect s := by simp [onHost, h]

theorem onHost_running {s : State} (h : s.runMode.isRunning = true) (i : Instr) (effect : State → State) :
    onHost i effect s = hold (encode i) s := by
  cases hm : s.runMode <;> simp_all [onHost, RunMode.isRunning]

theorem onHost_faulted {s : State} (h : s.runMode = .faulted) (i : Instr) (effect : State → State) :
    onHost i effect s = refuse .host s := by simp [onHost, h]

/-- Everything a host-port command can do. -/
theorem onHost_cases (i : Instr) (effect : State → State) (s : State) :
    (s.runMode = .idle ∧ onHost i effect s = effect s) ∨
    (s.runMode.isRunning = true ∧ onHost i effect s = hold (encode i) s) ∨
    (s.runMode = .faulted ∧ onHost i effect s = refuse .host s) := by
  cases hm : s.runMode <;> simp [onHost, hm, RunMode.isRunning]

theorem onCpu_idle {s : State} (h : s.runMode = .idle) (effect : Bool → State → State) :
    onCpu effect s = raise .cpu .illegalCommand s := by simp [onCpu, h]

theorem onCpu_running {s : State} {m : Bool} (h : s.runMode = .running m) (effect : Bool → State → State) :
    onCpu effect s = effect m s := by simp [onCpu, h]

theorem onCpu_faulted {s : State} (h : s.runMode = .faulted) (effect : Bool → State → State) :
    onCpu effect s = refuse .cpu s := by simp [onCpu, h]

/-- Everything a CPU-port command can do. -/
theorem onCpu_cases (effect : Bool → State → State) (s : State) :
    (s.runMode = .idle ∧ onCpu effect s = raise .cpu .illegalCommand s) ∨
    (∃ m, s.runMode = .running m ∧ onCpu effect s = effect m s) ∨
    (s.runMode = .faulted ∧ onCpu effect s = refuse .cpu s) := by
  cases hm : s.runMode <;> simp [onCpu, hm]

/-! ### The synchronizer -/

theorem addTicks_of_fits {t x : Tick} (h : t.toNat + x.toNat < 2 ^ 32) : addTicks t x = some (t + x) := by
  simp only [addTicks]
  rw [if_neg (by omega)]

theorem addTicks_of_overflow {t x : Tick} (h : 2 ^ 32 ≤ t.toNat + x.toNat) : addTicks t x = none := by
  simp only [addTicks]
  rw [if_pos h]

/-- Everything TICK_ADV can do while IDLE. -/
theorem hostAdvance_cases (amount : Tick) (s : State) :
    (2 ^ 32 ≤ s.ticks.toNat + amount.toNat ∧ hostAdvance amount s = raise .host .tickOverflow s) ∨
    (s.ticks.toNat + amount.toNat < 2 ^ 32 ∧
      hostAdvance amount s = respond .host .done 0#32 { s with ticks := s.ticks + amount }) := by
  rcases Nat.lt_or_ge (s.ticks.toNat + amount.toNat) (2 ^ 32) with h | h
  · exact .inr ⟨h, by simp [hostAdvance, addTicks_of_fits h]⟩
  · exact .inl ⟨h, by simp [hostAdvance, addTicks_of_overflow h]⟩

/-- Everything CPU_ADV can do while RUNNING. -/
theorem cpuAdvance_cases (amount : Tick) (s : State) :
    (2 ^ 32 ≤ s.ticks.toNat + amount.toNat ∧ cpuAdvance amount s = raise .cpu .tickOverflow s) ∨
    (s.ticks.toNat + amount.toNat < 2 ^ 32 ∧
      cpuAdvance amount s =
        respond .cpu .done 0#32 { s with ticks := s.ticks + amount, stepAcc := s.stepAcc + amount }) := by
  rcases Nat.lt_or_ge (s.ticks.toNat + amount.toNat) (2 ^ 32) with h | h
  · exact .inr ⟨h, by simp [cpuAdvance, addTicks_of_fits h]⟩
  · exact .inl ⟨h, by simp [cpuAdvance, addTicks_of_overflow h]⟩

theorem atBoundary_iff (F t : Tick) : atBoundary F t = true ↔ F.toNat ≤ t.toNat := by
  simp [atBoundary]

/-- Everything RUN_FRAME and EXEC_FRAME can do while IDLE. -/
theorem startFrame_cases (F : Tick) (m : Bool) (s : State) :
    (F.toNat ≤ s.ticks.toNat ∧ startFrame F m s = endFrame F m s) ∨
    (s.ticks.toNat < F.toNat ∧ startFrame F m s = requestStep { s with runMode := .running m }) := by
  rcases Nat.lt_or_ge s.ticks.toNat F.toNat with h | h
  · exact .inr ⟨h, by simp [startFrame, atBoundary, Nat.not_le.mpr h]⟩
  · exact .inl ⟨h, by simp [startFrame, atBoundary, h]⟩

/-- Everything CPU_STEP_END can do while RUNNING. -/
theorem endStep_cases (F : Tick) (m : Bool) (s : State) :
    (s.stepAcc = 0#32 ∧ endStep F m s = raise .cpu .zeroProgressStep s) ∨
    (s.stepAcc ≠ 0#32 ∧ F.toNat ≤ s.ticks.toNat ∧ endStep F m s = endFrame F m (respond .cpu .done 0#32 s)) ∨
    (s.stepAcc ≠ 0#32 ∧ s.ticks.toNat < F.toNat ∧ endStep F m s = requestStep (respond .cpu .done 0#32 s)) := by
  by_cases h0 : s.stepAcc = 0#32
  · exact .inl ⟨h0, by simp [endStep, h0]⟩
  · rcases Nat.lt_or_ge s.ticks.toNat F.toNat with h | h
    · exact .inr (.inr ⟨h0, h, by simp [endStep, h0, atBoundary, Nat.not_le.mpr h]⟩)
    · exact .inr (.inl ⟨h0, h, by simp [endStep, h0, atBoundary, h]⟩)

theorem endFrame_without_render (F : Tick) (s : State) :
    endFrame F false s = respond .host .done 0#32 { s with ticks := s.ticks - F, runMode := .idle } := rfl

theorem endFrame_with_render (F : Tick) (s : State) :
    endFrame F true s =
      respond .host .done 0#32 (renderFrame { s with ticks := s.ticks - F, runMode := .idle }) := rfl

@[simp] theorem endFrame_runMode (F : Tick) (m : Bool) (s : State) : (endFrame F m s).runMode = .idle := by
  cases m <;> rfl

@[simp] theorem endFrame_ticks (F : Tick) (m : Bool) (s : State) : (endFrame F m s).ticks = s.ticks - F := by
  cases m <;> rfl

@[simp] theorem endFrame_mem (F : Tick) (m : Bool) (s : State) : (endFrame F m s).mem = s.mem := by
  cases m <;> rfl

@[simp] theorem endFrame_stepAcc (F : Tick) (m : Bool) (s : State) : (endFrame F m s).stepAcc = s.stepAcc := by
  cases m <;> rfl

@[simp] theorem endFrame_faultCode (F : Tick) (m : Bool) (s : State) : (endFrame F m s).faultCode = s.faultCode := by
  cases m <;> rfl

@[simp] theorem endFrame_inbox (F : Tick) (m : Bool) (s : State) : (endFrame F m s).inbox = s.inbox := by
  cases m <;> rfl

@[simp] theorem endFrame_sent (F : Tick) (m : Bool) (s : State) :
    (endFrame F m s).sent = s.sent ++ [⟨.host, responseWord .done 0#32⟩] := by
  cases m <;> rfl

@[simp] theorem endFrame_fb (F : Tick) (m : Bool) (s : State) :
    (endFrame F m s).fb = if m then paintFrame s.mem else s.fb := by
  cases m <;> rfl

@[simp] theorem endFrame_fbValid (F : Tick) (m : Bool) (s : State) :
    (endFrame F m s).fbValid = (m || s.fbValid) := by
  cases m <;> rfl

/-- The subtraction of end_frame does not wrap where it is used. -/
theorem ticks_sub_toNat {t F : Tick} (h : F.toNat ≤ t.toNat) : (t - F).toNat = t.toNat - F.toNat :=
  BitVec.toNat_sub_of_le h

/-! ### FB_RD -/

theorem fbIndexOutOfRange_iff (row : BitVec 16) (col : BitVec 32) :
    fbIndexOutOfRange row col = true ↔ 280 ≤ row.toNat ∨ 44 ≤ col.toNat := by
  simp [fbIndexOutOfRange]

/-- Everything FB_RD can do while IDLE. -/
theorem readChunk_cases (row : BitVec 16) (col : BitVec 32) (s : State) :
    ((280 ≤ row.toNat ∨ 44 ≤ col.toNat) ∧ readChunk row col s = raise .host .fbIndexRange s) ∨
    (row.toNat < 280 ∧ col.toNat < 44 ∧ s.fbValid = false ∧ readChunk row col s = raise .host .fbNotValid s) ∨
    (row.toNat < 280 ∧ col.toNat < 44 ∧ s.fbValid = true ∧
      readChunk row col s = respond .host .value (fbChunk s.fb row.toNat col.toNat) s) := by
  by_cases h : 280 ≤ row.toNat ∨ 44 ≤ col.toNat
  · exact .inl ⟨h, by simp [readChunk, (fbIndexOutOfRange_iff row col).mpr h]⟩
  · have hf : fbIndexOutOfRange row col = false := by
      rw [← Bool.not_eq_true, fbIndexOutOfRange_iff]; exact h
    have hr : row.toNat < 280 := by omega
    have hc : col.toNat < 44 := by omega
    cases hv : s.fbValid
    · exact .inr (.inl ⟨hr, hc, rfl, by simp [readChunk, hf, hv]⟩)
    · exact .inr (.inr ⟨hr, hc, rfl, by simp [readChunk, hf, hv]⟩)

/-! ### The choice of the next word -/

theorem takeCpu_of_held (held : List PortWord) (hheld : ∀ c ∈ held, c.port = .host) (c : PortWord)
    (hc : c.port = .cpu) (rest : List PortWord) : takeCpu (held ++ c :: rest) = some (c, held ++ rest) := by
  induction held with
  | nil => simp [takeCpu, hc]
  | cons d held ih =>
    have hd := hheld d (List.mem_cons_self ..)
    simp [takeCpu, hd, ih fun e he => hheld e (List.mem_cons_of_mem _ he)]

theorem takeCpu_none (held : List PortWord) (hheld : ∀ c ∈ held, c.port = .host) : takeCpu held = none := by
  induction held with
  | nil => rfl
  | cons d held ih =>
    have hd := hheld d (List.mem_cons_self ..)
    simp [takeCpu, hd, ih fun e he => hheld e (List.mem_cons_of_mem _ he)]

theorem takeCpu_port {l : List PortWord} {c : PortWord} {others : List PortWord}
    (h : takeCpu l = some (c, others)) : c.port = .cpu := by
  induction l generalizing others with
  | nil => simp [takeCpu] at h
  | cons d rest ih =>
    simp only [takeCpu] at h
    split at h
    · simp only [Option.some.injEq, Prod.mk.injEq] at h
      rw [← h.1]; assumption
    · split at h
      · cases h
      · rename_i hrec
        simp only [Option.some.injEq, Prod.mk.injEq] at h
        obtain ⟨rfl, -⟩ := h
        exact ih hrec

/-- While RUNNING the word taken is a CPU-port word (R56). -/
theorem takeNext_port {mode : RunMode} {inbox : List PortWord} {c : PortWord} {others : List PortWord}
    (h : takeNext mode inbox = some (c, others)) (hm : mode.isRunning = true) : c.port = .cpu := by
  cases mode <;> simp_all [RunMode.isRunning, takeNext]
  exact takeCpu_port h

theorem takeNext_presentFirst (w : Word) (s : State) :
    takeNext (presentFirst w s).runMode (presentFirst w s).inbox = some (⟨markedPort w, w⟩, s.inbox) := by
  simp only [presentFirst_runMode, presentFirst_inbox]
  cases hp : markedPort w <;> cases hm : s.runMode <;> simp [takeNext, takeCpu, acceptingMode]

end Sys2Proof.Machine
end

