-- ==== Sys2Proof/Laws/Dispatch.lean ====
section
/-! SUPPORT. The dispatch read as a function: no command of the block ends in a fault or a refusal of the model, and the
state after each is one application of its gate to its effect. -/

namespace Sys2Proof.Machine

/-- The state after a command. -/
def after (i : Instr) (s : State) : State :=
  match i with
  | .memRd addr => onHost i (readByte .host addr) s
  | .memWr addr data => onHost i (writeByte .host addr data) s
  | .tickAdv amount => onHost i (hostAdvance amount) s
  | .tickRd => onHost i (fun s => respond .host .value s.ticks s) s
  | .runFrame => onHost i (startFrame Config.frameTicks false) s
  | .render => onHost i renderNow s
  | .execFrame => onHost i (startFrame Config.frameTicks true) s
  | .fbRd row col => onHost i (readChunk row col) s
  | .statusRd => if s.runMode.isRunning then hold (encode i) s else readStatus s
  | .cpuRd addr => onCpu (fun _ => readByte .cpu addr) s
  | .cpuWr addr data => onCpu (fun _ => writeByte .cpu addr data) s
  | .cpuAdv amount => onCpu (fun _ => cpuAdvance amount) s
  | .cpuStepEnd => onCpu (endStep Config.frameTicks) s

/-- Every command ends in a next state. -/
theorem exec_eq_next (i : Instr) (s : State) : exec i s = .next (after i s) := by
  cases i
  case statusRd => cases hm : s.runMode <;> simp [exec, execStatusRd, after, hm, RunMode.isRunning]
  all_goals rfl

/-- A command's next state is `after`. -/
theorem exec_next_iff {i : Instr} {s t : State} : exec i s = .next t ↔ t = after i s := by
  rw [exec_eq_next]
  constructor
  · intro h; injection h with h; exact h.symm
  · rintro rfl; rfl

/-- A step that takes a word runs the command it decodes to. -/
theorem step_of_decode {s : State} {c : PortWord} {others : List PortWord} {i : Instr}
    (htake : takeNext s.runMode s.inbox = some (c, others)) (hdec : decode c.port c.word = .ok i) :
    step s = exec i { s with inbox := others } := by
  simp [step, htake, hdec]

/-- A step that takes a word of no command rejects it. -/
theorem step_of_reject {s : State} {c : PortWord} {others : List PortWord} {e : DecodeError}
    (htake : takeNext s.runMode s.inbox = some (c, others)) (hdec : decode c.port c.word = .error e) :
    step s = .next (rejectWord c.port { s with inbox := others }) := by
  simp [step, htake, hdec]

/-- Everything a step can do. -/
theorem step_cases (s : State) :
    (takeNext s.runMode s.inbox = none ∧ step s = .next s) ∨
    (∃ c others i, takeNext s.runMode s.inbox = some (c, others) ∧ decode c.port c.word = .ok i ∧
      step s = .next (after i { s with inbox := others })) ∨
    (∃ c others e, takeNext s.runMode s.inbox = some (c, others) ∧ decode c.port c.word = .error e ∧
      step s = .next (rejectWord c.port { s with inbox := others })) := by
  cases ht : takeNext s.runMode s.inbox with
  | none => exact .inl ⟨rfl, by simp [step, ht]⟩
  | some pair =>
    obtain ⟨c, others⟩ := pair
    cases hd : decode c.port c.word with
    | ok i => exact .inr (.inl ⟨c, others, i, rfl, hd, by rw [step_of_decode ht hd, exec_eq_next]⟩)
    | error e => exact .inr (.inr ⟨c, others, e, rfl, hd, step_of_reject ht hd⟩)

/-- A word presented by `withFetchWord` is the one the very next step takes (assumption log entry 8). -/
theorem step_withFetchWord (s : State) (nbits w : Nat) {i : Instr} (h : decodeTableWord nbits w = some i) :
    step (s.withFetchWord nbits w) =
      exec i { s with runMode := acceptingMode (markedPort (tableWord nbits w)) s.runMode } := by
  have hdec : decode (markedPort (tableWord nbits w)) (tableWord nbits w) = .ok i := by
    unfold decodeTableWord at h
    split at h
    · injection h with h; subst h; assumption
    · cases h
  rw [State.withFetchWord, step_of_decode (takeNext_presentFirst _ _) hdec]
  simp [presentFirst]

end Sys2Proof.Machine
end

