-- ==== Sys2Proof/Laws/Effects.lean ====
section
/-! SUPPORT. Everything a command, and a step, can do: one constructor for each way a command ends, with the guard under
which it ends so. Statements about the whole machine are case analyses over `Effect`, and unfold no meaning. -/

namespace Sys2Proof.Machine

/-- `Effect i s t`: command `i` takes state `s` to state `t`. -/
inductive Effect : Instr → State → State → Prop where
  /-- The host port holds (R56). -/
  | held {i s} (port : i.port = .host) (mode : s.runMode.isRunning = true) : Effect i s (hold (encode i) s)
  /-- REFUSED in FAULTED (R100). -/
  | refused {i s} (notStatus : i ≠ .statusRd) (mode : s.runMode = .faulted) : Effect i s (refuse i.port s)
  /-- STATUS_RD (R95). -/
  | status {s} (mode : s.runMode.isRunning = false) : Effect .statusRd s (readStatus s)
  /-- A CPU-port command while IDLE (R56). -/
  | cpuWhileIdle {i s} (port : i.port = .cpu) (mode : s.runMode = .idle) :
      Effect i s (raise .cpu .illegalCommand s)
  | memRd {addr s} (mode : s.runMode = .idle) : Effect (.memRd addr) s (readByte .host addr s)
  | memWr {addr data s} (mode : s.runMode = .idle) : Effect (.memWr addr data) s (writeByte .host addr data s)
  | tickAdv {x s} (mode : s.runMode = .idle) (fits : s.ticks.toNat + x.toNat < 2 ^ 32) :
      Effect (.tickAdv x) s (respond .host .done 0#32 { s with ticks := s.ticks + x })
  | tickAdvOverflow {x s} (mode : s.runMode = .idle) (overflow : 2 ^ 32 ≤ s.ticks.toNat + x.toNat) :
      Effect (.tickAdv x) s (raise .host .tickOverflow s)
  | tickRd {s} (mode : s.runMode = .idle) : Effect .tickRd s (respond .host .value s.ticks s)
  | runFrameEnds {s} (mode : s.runMode = .idle) (reached : Config.frameTicks.toNat ≤ s.ticks.toNat) :
      Effect .runFrame s (endFrame Config.frameTicks false s)
  | runFrameStarts {s} (mode : s.runMode = .idle) (below : s.ticks.toNat < Config.frameTicks.toNat) :
      Effect .runFrame s (requestStep { s with runMode := .running false })
  | execFrameEnds {s} (mode : s.runMode = .idle) (reached : Config.frameTicks.toNat ≤ s.ticks.toNat) :
      Effect .execFrame s (endFrame Config.frameTicks true s)
  | execFrameStarts {s} (mode : s.runMode = .idle) (below : s.ticks.toNat < Config.frameTicks.toNat) :
      Effect .execFrame s (requestStep { s with runMode := .running true })
  | render {s} (mode : s.runMode = .idle) : Effect .render s (renderNow s)
  | fbRdRange {row col s} (mode : s.runMode = .idle) (range : 280 ≤ row.toNat ∨ 44 ≤ col.toNat) :
      Effect (.fbRd row col) s (raise .host .fbIndexRange s)
  | fbRdInvalid {row col s} (mode : s.runMode = .idle) (hrow : row.toNat < 280) (hcol : col.toNat < 44)
      (invalid : s.fbValid = false) : Effect (.fbRd row col) s (raise .host .fbNotValid s)
  | fbRd {row col s} (mode : s.runMode = .idle) (hrow : row.toNat < 280) (hcol : col.toNat < 44)
      (valid : s.fbValid = true) :
      Effect (.fbRd row col) s (respond .host .value (fbChunk s.fb row.toNat col.toNat) s)
  | cpuRd {addr s m} (mode : s.runMode = .running m) : Effect (.cpuRd addr) s (readByte .cpu addr s)
  | cpuWr {addr data s m} (mode : s.runMode = .running m) :
      Effect (.cpuWr addr data) s (writeByte .cpu addr data s)
  | cpuAdv {x s m} (mode : s.runMode = .running m) (fits : s.ticks.toNat + x.toNat < 2 ^ 32) :
      Effect (.cpuAdv x) s
        (respond .cpu .done 0#32 { s with ticks := s.ticks + x, stepAcc := s.stepAcc + x })
  | cpuAdvOverflow {x s m} (mode : s.runMode = .running m) (overflow : 2 ^ 32 ≤ s.ticks.toNat + x.toNat) :
      Effect (.cpuAdv x) s (raise .cpu .tickOverflow s)
  | stepEndZero {s m} (mode : s.runMode = .running m) (zero : s.stepAcc = 0#32) :
      Effect .cpuStepEnd s (raise .cpu .zeroProgressStep s)
  | stepEndFrame {s m} (mode : s.runMode = .running m) (positive : s.stepAcc ≠ 0#32)
      (reached : Config.frameTicks.toNat ≤ s.ticks.toNat) :
      Effect .cpuStepEnd s (endFrame Config.frameTicks m (respond .cpu .done 0#32 s))
  | stepEndNext {s m} (mode : s.runMode = .running m) (positive : s.stepAcc ≠ 0#32)
      (below : s.ticks.toNat < Config.frameTicks.toNat) :
      Effect .cpuStepEnd s (requestStep (respond .cpu .done 0#32 s))

/-- A host-port command has an effect through its gate. -/
theorem effect_onHost {i : Instr} {effect : State → State} {s : State} (hport : i.port = .host)
    (hi : i ≠ .statusRd) (h : s.runMode = .idle → Effect i s (effect s)) : Effect i s (onHost i effect s) := by
  rcases onHost_cases i effect s with ⟨hm, he⟩ | ⟨hm, he⟩ | ⟨hm, he⟩ <;> rw [he]
  · exact h hm
  · exact .held hport hm
  · rw [← hport]; exact .refused hi hm

/-- A CPU-port command has an effect through its gate. -/
theorem effect_onCpu {i : Instr} {effect : Bool → State → State} {s : State} (hport : i.port = .cpu)
    (hi : i ≠ .statusRd) (h : ∀ m, s.runMode = .running m → Effect i s (effect m s)) :
    Effect i s (onCpu effect s) := by
  rcases onCpu_cases effect s with ⟨hm, he⟩ | ⟨m, hm, he⟩ | ⟨hm, he⟩ <;> rw [he]
  · exact .cpuWhileIdle hport hm
  · exact h m hm
  · rw [← hport]; exact .refused hi hm

/-- Every command has one of the effects. -/
theorem effect_after (i : Instr) (s : State) : Effect i s (after i s) := by
  cases i with
  | memRd addr => exact effect_onHost rfl (by simp) fun hm => .memRd hm
  | memWr addr data => exact effect_onHost rfl (by simp) fun hm => .memWr hm
  | tickAdv x =>
    refine effect_onHost rfl (by simp) fun hm => ?_
    rcases hostAdvance_cases x s with ⟨h, he⟩ | ⟨h, he⟩ <;> rw [he]
    · exact .tickAdvOverflow hm h
    · exact .tickAdv hm h
  | tickRd => exact effect_onHost rfl (by simp) fun hm => .tickRd hm
  | runFrame =>
    refine effect_onHost rfl (by simp) fun hm => ?_
    rcases startFrame_cases Config.frameTicks false s with ⟨h, he⟩ | ⟨h, he⟩ <;> rw [he]
    · exact .runFrameEnds hm h
    · exact .runFrameStarts hm h
  | render => exact effect_onHost rfl (by simp) fun hm => .render hm
  | execFrame =>
    refine effect_onHost rfl (by simp) fun hm => ?_
    rcases startFrame_cases Config.frameTicks true s with ⟨h, he⟩ | ⟨h, he⟩ <;> rw [he]
    · exact .execFrameEnds hm h
    · exact .execFrameStarts hm h
  | fbRd row col =>
    refine effect_onHost rfl (by simp) fun hm => ?_
    rcases readChunk_cases row col s with ⟨h, he⟩ | ⟨hr, hc, hv, he⟩ | ⟨hr, hc, hv, he⟩ <;> rw [he]
    · exact .fbRdRange hm h
    · exact .fbRdInvalid hm hr hc hv
    · exact .fbRd hm hr hc hv
  | statusRd =>
    simp only [after]
    split
    · exact .held rfl ‹_›
    · exact .status (Bool.eq_false_iff.mpr ‹_›)
  | cpuRd addr => exact effect_onCpu rfl (by simp) fun m hm => .cpuRd hm
  | cpuWr addr data => exact effect_onCpu rfl (by simp) fun m hm => .cpuWr hm
  | cpuAdv x =>
    refine effect_onCpu rfl (by simp) fun m hm => ?_
    rcases cpuAdvance_cases x s with ⟨h, he⟩ | ⟨h, he⟩ <;> rw [he]
    · exact .cpuAdvOverflow hm h
    · exact .cpuAdv hm h
  | cpuStepEnd =>
    refine effect_onCpu rfl (by simp) fun m hm => ?_
    rcases endStep_cases Config.frameTicks m s with ⟨h0, he⟩ | ⟨h0, h, he⟩ | ⟨h0, h, he⟩ <;> rw [he]
    · exact .stepEndZero hm h0
    · exact .stepEndFrame hm h0 h
    · exact .stepEndNext hm h0 h

/-- What a command answers is one of its effects. -/
theorem exec_effect {i : Instr} {s t : State} (h : exec i s = .next t) : Effect i s t := by
  rw [exec_next_iff] at h
  exact h ▸ effect_after i s

/-- Everything a step can do. -/
theorem step_effect {s t : State} (h : step s = .next t) :
    (takeNext s.runMode s.inbox = none ∧ t = s) ∨
    (∃ c others i, takeNext s.runMode s.inbox = some (c, others) ∧ decode c.port c.word = .ok i ∧
      Effect i { s with inbox := others } t) ∨
    (∃ c others e, takeNext s.runMode s.inbox = some (c, others) ∧ decode c.port c.word = .error e ∧
      t = rejectWord c.port { s with inbox := others }) := by
  rcases step_cases s with ⟨ht, hs⟩ | ⟨c, others, i, ht, hd, hs⟩ | ⟨c, others, e, ht, hd, hs⟩
  · rw [hs] at h; injection h with h
    exact .inl ⟨ht, h.symm⟩
  · rw [hs] at h; injection h with h
    exact .inr (.inl ⟨c, others, i, ht, hd, h ▸ effect_after i _⟩)
  · rw [hs] at h; injection h with h
    exact .inr (.inr ⟨c, others, e, ht, hd, h.symm⟩)

/-- Rejecting a word: REFUSED in FAULTED, ILLEGAL_COMMAND otherwise (R52 to R54, R100). -/
theorem rejectWord_cases (p : Port) (s : State) :
    (s.runMode = .faulted ∧ rejectWord p s = refuse p s) ∨
    (s.runMode ≠ .faulted ∧ rejectWord p s = raise p .illegalCommand s) := by
  cases hm : s.runMode <;> simp [rejectWord, hm]

end Sys2Proof.Machine
end

