-- ==== Sys2Proof/Laws/Memory.lean ====
section
/-! SUPPORT. The laws of the memory image: read after write, and that every operation keeps the canonical form, in which
equal memories are equal data. -/

namespace Sys2Proof.Machine

/-! ### What is listed after each operation -/

theorem Memory.find_put (m : Memory) (k : Nat) (v : Byte) (j : Nat) :
    Memory.find (Memory.put m k v) j = if j = k then some v else Memory.find m j := by
  induction m with
  | nil => simp [Memory.put, Memory.find, eq_comm]
  | cons cell rest ih =>
    obtain ⟨a, w⟩ := cell
    simp only [Memory.put]
    split
    · simp [Memory.find, eq_comm]
    · split
      · subst a; by_cases h : k = j <;> simp [Memory.find, h, eq_comm]
      · simp only [Memory.find, ih]
        by_cases h : a = j
        · subst h; simp [*]
        · simp [h]

theorem Memory.find_drop (m : Memory) (k j : Nat) :
    Memory.find (Memory.drop m k) j = if j = k then none else Memory.find m j := by
  induction m with
  | nil => simp [Memory.drop, Memory.find]
  | cons cell rest ih =>
    obtain ⟨a, w⟩ := cell
    simp only [Memory.drop] at ih
    by_cases h : a = k
    · subst h
      simp only [Memory.drop, bne_self_eq_false, Bool.false_eq_true, not_false_eq_true, List.filter_cons_of_neg, ih]
      by_cases hj : j = a
      · simp [hj]
      · simp [Memory.find, hj, Ne.symm hj]
    · simp only [Memory.drop, bne_iff_ne, ne_eq, h, not_false_eq_true, List.filter_cons_of_pos, Memory.find, ih]
      by_cases hj : a = j
      · subst hj; simp [h]
      · simp [hj]

/-- A read after a write gives the value written, and every other address reads as before (R41). -/
theorem Memory.read_write (m : Memory) (a : Addr) (v : Byte) (b : Addr) :
    (m.write a v).read b = if b = a then v else m.read b := by
  have key : b.toNat = a.toNat ↔ b = a := BitVec.toNat_inj
  unfold Memory.write Memory.read
  split
  · rw [Memory.find_drop]
    by_cases h : b = a
    · subst h; simp [*]
    · simp [key, h]
  · rw [Memory.find_put]
    by_cases h : b = a
    · subst h; simp
    · simp [key, h]

theorem Memory.read_write_self (m : Memory) (a : Addr) (v : Byte) : (m.write a v).read a = v := by
  simp [Memory.read_write]

theorem Memory.read_nil (a : Addr) : Memory.read [] a = Config.initMemory a := rfl

/-! ### The canonical form -/

theorem Memory.mem_put {m : Memory} {k : Nat} {v : Byte} {cell : Host.Cell} (h : cell ∈ Memory.put m k v) :
    cell = (k, v) ∨ cell ∈ m := by
  induction m with
  | nil => simpa [Memory.put] using h
  | cons head rest ih =>
    obtain ⟨a, w⟩ := head
    simp only [Memory.put] at h
    split at h
    · simpa using h
    · split at h
      · rcases List.mem_cons.mp h with rfl | h
        · exact .inl rfl
        · exact .inr (List.mem_cons_of_mem _ h)
      · rcases List.mem_cons.mp h with rfl | h
        · exact .inr (List.mem_cons_self ..)
        · exact (ih h).imp_right (List.mem_cons_of_mem _)

theorem Memory.put_rising {m : Memory} (k : Nat) (v : Byte) (h : (m.map Prod.fst).Pairwise (· < ·)) :
    ((Memory.put m k v).map Prod.fst).Pairwise (· < ·) := by
  induction m with
  | nil => simp [Memory.put]
  | cons head rest ih =>
    obtain ⟨a, w⟩ := head
    have htail := (List.pairwise_cons.mp h)
    simp only [Memory.put]
    split
    · rename_i hka
      refine List.pairwise_cons.mpr ⟨?_, h⟩
      intro b hb
      rcases List.mem_cons.mp hb with rfl | hb
      · exact hka
      · exact Nat.lt_trans hka (htail.1 b hb)
    · split
      · subst a; exact h
      · rename_i h1 h2
        refine List.pairwise_cons.mpr ⟨?_, ih htail.2⟩
        intro b hb
        obtain ⟨cell, hcell, rfl⟩ := List.mem_map.mp hb
        rcases Memory.mem_put hcell with rfl | hcell
        · simp only; omega
        · exact htail.1 _ (List.mem_map_of_mem hcell)

/-- A write keeps the canonical form. -/
theorem Memory.wf_write {m : Memory} (h : m.wf) (a : Addr) (v : Byte) : (m.write a v).wf := by
  unfold Memory.write
  split
  · refine ⟨?_, fun cell hc => h.2 cell (List.mem_of_mem_filter hc)⟩
    exact h.1.sublist (List.Sublist.map _ List.filter_sublist)
  · rename_i hv
    refine ⟨Memory.put_rising _ _ h.1, fun cell hc => ?_⟩
    rcases Memory.mem_put hc with rfl | hc
    · exact ⟨a.isLt, by simpa using hv⟩
    · exact h.2 cell hc

/-- The memory of the reset state is canonical. -/
theorem Memory.wf_nil : Memory.wf [] := ⟨List.Pairwise.nil, fun _ h => nomatch h⟩

end Sys2Proof.Machine
end

