-- ==== Sys2Proof/Laws/PerInstr.lean ====
section
/-! SUPPORT. The family WordLayout: the word of each command carries the command's opcode in 63:56, bit 63 marks its port,
and the fields its format does not use are zero (30_encoding.md R49, R50, R51). -/

namespace Sys2Proof.Laws.WordLayout

/-- The layout of a command's word. -/
def Statement (i : Instr) : Prop :=
  opField (encode i) = i.mnemonic.opcode ∧
  ((encode i).getLsbD 63 = true ↔ i.port = .cpu) ∧
  unusedFieldsZero i.mnemonic.format (encode i) = true

theorem of_marked {i : Instr} (h : (encode i).getLsbD 63 = true ↔ i.port = .cpu) : Statement i :=
  ⟨opField_encode i, h, unusedFieldsZero_encode i⟩

theorem memRd (addr : Addr) : Statement (.memRd addr) :=
  of_marked (by rw [encode, getLsbD_63_packWord]; simp [Instr.port, Instr.mnemonic, Mnemonic.port])

theorem memWr (addr : Addr) (data : Byte) : Statement (.memWr addr data) :=
  of_marked (by rw [encode, getLsbD_63_packWord]; simp [Instr.port, Instr.mnemonic, Mnemonic.port])

theorem tickAdv (amount : Tick) : Statement (.tickAdv amount) :=
  of_marked (by rw [encode, getLsbD_63_packWord]; simp [Instr.port, Instr.mnemonic, Mnemonic.port])

theorem tickRd : Statement (.tickRd) :=
  of_marked (by rw [encode, getLsbD_63_packWord]; simp [Instr.port, Instr.mnemonic, Mnemonic.port])

theorem runFrame : Statement (.runFrame) :=
  of_marked (by rw [encode, getLsbD_63_packWord]; simp [Instr.port, Instr.mnemonic, Mnemonic.port])

theorem render : Statement (.render) :=
  of_marked (by rw [encode, getLsbD_63_packWord]; simp [Instr.port, Instr.mnemonic, Mnemonic.port])

theorem execFrame : Statement (.execFrame) :=
  of_marked (by rw [encode, getLsbD_63_packWord]; simp [Instr.port, Instr.mnemonic, Mnemonic.port])

theorem fbRd (row : BitVec 16) (col : BitVec 32) : Statement (.fbRd row col) :=
  of_marked (by rw [encode, getLsbD_63_packWord]; simp [Instr.port, Instr.mnemonic, Mnemonic.port])

theorem statusRd : Statement (.statusRd) :=
  of_marked (by rw [encode, getLsbD_63_packWord]; simp [Instr.port, Instr.mnemonic, Mnemonic.port])

theorem cpuRd (addr : Addr) : Statement (.cpuRd addr) :=
  of_marked (by rw [encode, getLsbD_63_packWord]; simp [Instr.port, Instr.mnemonic, Mnemonic.port])

theorem cpuWr (addr : Addr) (data : Byte) : Statement (.cpuWr addr data) :=
  of_marked (by rw [encode, getLsbD_63_packWord]; simp [Instr.port, Instr.mnemonic, Mnemonic.port])

theorem cpuAdv (amount : Tick) : Statement (.cpuAdv amount) :=
  of_marked (by rw [encode, getLsbD_63_packWord]; simp [Instr.port, Instr.mnemonic, Mnemonic.port])

theorem cpuStepEnd : Statement (.cpuStepEnd) :=
  of_marked (by rw [encode, getLsbD_63_packWord]; simp [Instr.port, Instr.mnemonic, Mnemonic.port])

end Sys2Proof.Laws.WordLayout
end

