-- ==== Sys2Proof/Laws/Renderer.lean ====
section
/-! SUPPORT. What the render procedure leaves in each row and in each chunk of the frame buffer. -/

namespace Sys2Proof.Machine

theorem lineAddr_eq_iterate (i : Nat) : lineAddr i = lineStep^[i] displayBase := by
  induction i with
  | zero => rfl
  | succ i ih => rw [lineAddr, ih, Function.iterate_succ_apply']

theorem activeRows_getElem (m : Memory) (n : Nat) (line : Addr) (i : Nat) (hi : i < (activeRows m n line).length) :
    (activeRows m n line)[i] = activeRow m (lineStep^[i] line) := by
  induction n generalizing line i with
  | zero => simp [activeRows] at hi
  | succ n ih =>
    cases i with
    | zero => rfl
    | succ i => simp [activeRows, ih]

/-- The row that a render leaves (R91), in terms of the line-address sequence LA. -/
theorem paintFrame_getElem (m : Memory) (r : Nat) (hr : r < Config.fbRows) :
    (paintFrame m)[r] = if 48 ≤ r ∧ r < 240 then activeRow m (lineAddr (r - 48)) else borderRow := by
  have hr' : r < 280 := hr
  unfold paintFrame
  simp only [Vector.getElem_mk, List.getElem_toArray, frameRows, List.getElem_append, List.length_append,
    List.length_replicate, activeRows_length, List.getElem_replicate, activeRows_getElem, lineAddr_eq_iterate]
  split
  · split
    · rw [if_neg (by omega)]
    · rw [if_pos (by omega)]
  · rw [if_neg (by omega)]

theorem activeRow_getElem (m : Memory) (line : Addr) (c : Nat) (hc : c < Config.fbCols) :
    (activeRow m line)[c] =
      if 6 ≤ c ∧ c < 38 then chunk (m.read (line + BitVec.ofNat 16 (c - 6))) else whiteChunk := by
  have hc' : c < 44 := hc
  simp only [activeRow, Vector.getElem_mk, List.getElem_toArray, activeChunks, List.getElem_append, List.length_append,
    List.length_replicate, List.length_map, List.length_range, List.getElem_replicate, List.getElem_map,
    List.getElem_range]
  split
  · split
    · rw [if_neg (by omega)]
    · rw [if_pos (by omega)]
  · rw [if_neg (by omega)]

theorem borderRow_getElem (c : Nat) (hc : c < Config.fbCols) : borderRow[c] = whiteChunk := by
  simp [borderRow]

/-- The chunk that a render leaves (R89, R91), in terms of the line-address sequence LA. -/
theorem paintFrame_chunk (m : Memory) (r c : Nat) (hr : r < Config.fbRows) (hc : c < Config.fbCols) :
    (paintFrame m)[r][c] =
      if 48 ≤ r ∧ r < 240 ∧ 6 ≤ c ∧ c < 38 then
        chunk (m.read (lineAddr (r - 48) + BitVec.ofNat 16 (c - 6)))
      else whiteChunk := by
  simp only [paintFrame_getElem]
  split
  · rw [activeRow_getElem]
    simp [*]
  · rw [borderRow_getElem, if_neg (by omega)]

theorem fbChunk_eq (fb : Frame) (r c : Nat) (hr : r < Config.fbRows) (hc : c < Config.fbCols) :
    fbChunk fb r c = fb[r][c] := by
  simp [fbChunk, hr, hc]

/-- Two frame buffers with the same chunks are the same. -/
theorem Frame.ext_chunks {f g : Frame}
    (h : ∀ r c (hr : r < Config.fbRows) (hc : c < Config.fbCols), f[r][c] = g[r][c]) : f = g := by
  ext r hr c hc : 2
  exact h r c hr hc

end Sys2Proof.Machine
end

