-- ==== Sys2Proof/Tests/Slice0.lean ====
section
/-! SUPPORT. Tests: the encodings and vectors of the spec (30_encoding.md R62, 95_test_vectors.md), the checks of
WellFormed, one step of each command, and for every obligation with hypotheses a state and operands that meet them. -/

namespace Sys2Proof.Tests

open Sys2Proof.Machine Sys2Proof.Safety

/-! ### Small states -/

/-- The reset state with a mode, a tick counter, a step total and a memory. -/
def st (mode : RunMode) (ticks acc : Tick) (mem : Memory) : State :=
  { State.reset with runMode := mode, ticks := ticks, stepAcc := acc, mem := mem }

/-- A state in a mode, with one word at a port. -/
def withWord (mode : RunMode) (p : Port) (w : Word) : State :=
  { st mode 0#32 0#32 [] with inbox := [⟨p, w⟩] }

/-- The next state of an outcome. -/
def stateOf : Result → Option State
  | .next t => some t
  | .fault _ => none
  | .refused _ => none

/-! ### WellFormed: each check refuses an ill-formed term -/

theorem test_geometry_fixed : Config.geometry.wellFormed = true := by decide

/-- E6: left border 44 is refused. -/
theorem test_geometry_left : { Config.geometry with borderLeft := 44 }.wellFormed = false := by decide
theorem test_geometry_right : { Config.geometry with borderRight := 47 }.wellFormed = false := by decide
theorem test_geometry_top : { Config.geometry with borderTop := 49 }.wellFormed = false := by decide
theorem test_geometry_bottom : { Config.geometry with borderBottom := 41 }.wellFormed = false := by decide
theorem test_geometry_width : { Config.geometry with screenWidth := 255 }.wellFormed = false := by decide
theorem test_geometry_height : { Config.geometry with screenHeight := 191 }.wellFormed = false := by decide

theorem test_frameTicks_range :
    frameTicksWellFormed 0 = false ∧ frameTicksWellFormed 4294967296 = false ∧ frameTicksWellFormed 69888 = true := by
  decide

theorem test_frameTicks_wellFormed : frameTicksWellFormed Config.frameTicks.toNat = true := by
  have h := Config.frameTicks_pos
  have h2 := Config.frameTicks.isLt
  simp only [frameTicksWellFormed, Bool.and_eq_true, decide_eq_true_eq]
  omega

theorem test_fields_refused : fitsA 65536 = false ∧ fitsD 256 = false ∧ fitsN 4294967296 = false := by decide
theorem test_fields_accepted : fitsA 65535 = true ∧ fitsD 255 = true ∧ fitsN 4294967295 = true := by decide

/-! ### Decoding: words of R62 and 95_test_vectors.md 2.9, written out -/

theorem test_decode_memWr : decode .host 0x02B0400000000000#64 = .ok (.memWr 0x4000#16 0xB0#8) := by decide
theorem test_decode_memRd : decode .host 0x0100400000000000#64 = .ok (.memRd 0x4000#16) := by decide
theorem test_decode_tickAdv : decode .host 0x0300000000000064#64 = .ok (.tickAdv 100#32) := by decide
theorem test_decode_tickRd : decode .host 0x0400000000000000#64 = .ok .tickRd := by decide
theorem test_decode_runFrame : decode .host 0x0500000000000000#64 = .ok .runFrame := by decide
theorem test_decode_render : decode .host 0x0600000000000000#64 = .ok .render := by decide
theorem test_decode_execFrame : decode .host 0x0700000000000000#64 = .ok .execFrame := by decide
theorem test_decode_fbRd : decode .host 0x080001170000002B#64 = .ok (.fbRd 279#16 43#32) := by decide
theorem test_decode_statusRd : decode .host 0x0900000000000000#64 = .ok .statusRd := by decide
theorem test_decode_cpuRd : decode .cpu 0x8100800000000000#64 = .ok (.cpuRd 0x8000#16) := by decide
theorem test_decode_cpuWr : decode .cpu 0x82385AFF00000000#64 = .ok (.cpuWr 0x5AFF#16 0x38#8) := by decide
theorem test_decode_cpuAdv : decode .cpu 0x8300000000000004#64 = .ok (.cpuAdv 4#32) := by decide
theorem test_decode_cpuStepEnd : decode .cpu 0x8400000000000000#64 = .ok .cpuStepEnd := by decide

theorem test_decode_reserved : [0x0000000000000000#64, 0x0A00000000000000#64, 0x8000000000000000#64,
    0xFF00000000000000#64].map (decode .host) = List.replicate 4 (.error .reservedOpcode) := by decide
theorem test_decode_wrongPort : decode .host 0x8100000100000000#64 = .error .wrongPort ∧
    decode .cpu 0x0100000100000000#64 = .error .wrongPort := by decide
theorem test_decode_unused : [0x0400000000000001#64, 0x0100400000000001#64, 0x08FF003000000006#64].map (decode .host) =
    List.replicate 3 (.error .unusedFieldNonZero) := by decide

theorem test_decodeTableWord : decodeTableWord 64 0x8300000000000004 = some (.cpuAdv 4#32) ∧
    decodeTableWord 64 0x0A00000000000000 = none := by decide

/-! ### Pure functions: 95_test_vectors.md 2.1, 2.2, 2.4 -/

theorem test_chunk : [
    0x00#8, 0xFF#8, 0xB0#8, 0x80#8, 0x01#8, 0x55#8, 0xAA#8, 0x0F#8, 0xF0#8, 0x3C#8, 0xC3#8, 0x81#8, 0x7E#8,
      0x18#8].map chunk = [
    0x77777777#32, 0x00000000#32, 0x07007777#32, 0x07777777#32, 0x77777770#32, 0x70707070#32, 0x07070707#32,
      0x77770000#32, 0x00007777#32, 0x77000077#32, 0x00777700#32, 0x07777770#32, 0x70000007#32, 0x77700777#32] := by
  decide +kernel

theorem test_lineStep : [
    0x4000#16, 0x4600#16, 0x4700#16, 0x4720#16, 0x47E0#16, 0x4FE0#16, 0x50E0#16, 0x5700#16, 0x57E0#16,
      0xFF00#16, 0x07E0#16, 0x4005#16, 0x47FF#16].map lineStep = [
    0x4100#16, 0x4700#16, 0x4020#16, 0x4040#16, 0x4800#16, 0x5000#16, 0x51E0#16, 0x5020#16, 0x5800#16,
      0xF820#16, 0x0800#16, 0x4105#16, 0x481F#16] := by decide +kernel

theorem test_screenPosition : [0x4000#16, 0x401F#16, 0x4020#16, 0x4100#16, 0x47FF#16, 0x4800#16, 0x4820#16, 0x4FFF#16,
    0x5000#16, 0x5555#16, 0x57FF#16].map (fun a => (lineOf a, columnOf a)) =
    [(0, 0), (0, 31), (8, 0), (1, 0), (63, 31), (64, 0), (72, 0), (127, 31), (128, 0), (149, 21), (191, 31)] := by
  decide +kernel

theorem test_responseWord : responseWord .value 0x07007777#32 = 0x0100000007007777#64 ∧
    responseWord .fault 0x04#32 = 0xFF00000000000004#64 ∧ responseWord .refused 0x04#32 = 0xFE00000000000004#64 ∧
    responseWord .done 0#32 = 0#64 ∧ stepReqWord = 0x8000000000000000#64 := by decide

/-! ### One step of each command: 95_test_vectors.md 2.5 to 2.8 -/

theorem test_memRd : (stateOf (step { withWord .idle .host 0x0100400000000000#64 with
    mem := [(0x4000, 0xB0#8)] })).map State.sent = some [⟨.host, 0x01000000000000B0#64⟩] := by decide
theorem test_memWr (s : State) (h : s.runMode = .idle) :
    ∃ t, exec (.memWr 0xFFFF#16 0x12#8) s = .next t ∧ t.mem.read 0xFFFF#16 = 0x12#8 := by
  refine ⟨_, exec_eq_next _ _, ?_⟩
  simp [after, onHost_idle h, writeByte, Memory.read_write]
theorem test_cpuRd : (stateOf (step { withWord (.running false) .cpu 0x8100800000000000#64 with
    mem := [(0x8000, 0x3E#8)] })).map State.sent = some [⟨.cpu, 0x010000000000003E#64⟩] := by decide
theorem test_cpuWr (s : State) (h : s.runMode = .running true) :
    ∃ t, exec (.cpuWr 0x8000#16 0x3E#8) s = .next t ∧ t.mem.read 0x8000#16 = 0x3E#8 := by
  refine ⟨_, exec_eq_next _ _, ?_⟩
  simp [after, onCpu_running h, writeByte, Memory.read_write]
theorem test_cpuRd_idle : (stateOf (step (withWord .idle .cpu 0x8100800000000000#64))).map
    (fun t => (t.runMode, t.faultCode, t.sent)) =
    some (.faulted, 0x01#8, [⟨.cpu, 0xFF00000000000001#64⟩]) := by decide

theorem test_tickAdv : (stateOf (exec (.tickAdv 0xFFFFFFFF#32) (st .idle 0#32 0#32 []))).map
    (fun t => (t.ticks, t.runMode)) = some (0xFFFFFFFF#32, .idle) := by decide
theorem test_tickAdv_overflow : (stateOf (exec (.tickAdv 1#32) (st .idle 0xFFFFFFFF#32 0#32 []))).map
    (fun t => (t.ticks, t.faultCode, t.sent)) =
    some (0xFFFFFFFF#32, 0x03#8, [⟨.host, 0xFF00000000000003#64⟩]) := by decide
theorem test_tickRd : (stateOf (exec .tickRd (st .idle 69893#32 0#32 []))).map State.sent =
    some [⟨.host, 0x0100000000011105#64⟩] := by decide
theorem test_cpuAdv : (stateOf (exec (.cpuAdv 11#32) (st (.running false) 69880#32 0#32 []))).map
    (fun t => (t.ticks, t.stepAcc)) = some (69891#32, 11#32) := by decide
theorem test_cpuAdv_overflow : (stateOf (exec (.cpuAdv 0xFFFFFFFF#32) (st (.running true) 69880#32 0#32 []))).map
    (fun t => (t.ticks, t.stepAcc, t.sent)) =
    some (69880#32, 0#32, [⟨.cpu, 0xFF00000000000003#64⟩, ⟨.host, 0xFF00000000000003#64⟩]) := by decide

/-- FRAME_TICKS = 69888 is an instance of the parameter (R10). -/
theorem test_runFrame_surplus : ((startFrame 69888#32 false (st .idle 139781#32 0#32 [])).ticks,
    (startFrame 69888#32 false (st .idle 139781#32 0#32 [])).sent) = (69893#32, [⟨.host, 0#64⟩]) := by decide
theorem test_runFrame_starts : (startFrame 69888#32 false (st .idle 69887#32 5#32 [])).sent =
    [⟨.cpu, 0x8000000000000000#64⟩] ∧ (startFrame 69888#32 false (st .idle 69887#32 5#32 [])).stepAcc = 0#32 := by
  decide
theorem test_stepEnd_ends : (endStep 69888#32 false (st (.running false) 69891#32 11#32 [])).ticks = 3#32 ∧
    (endStep 69888#32 false (st (.running false) 69891#32 11#32 [])).sent = [⟨.cpu, 0#64⟩, ⟨.host, 0#64⟩] := by decide
theorem test_stepEnd_zero : (stateOf (exec .cpuStepEnd (st (.running false) 0#32 0#32 []))).map
    (fun t => (t.faultCode, t.sent)) =
    some (0x02#8, [⟨.cpu, 0xFF00000000000002#64⟩, ⟨.host, 0xFF00000000000002#64⟩]) := by decide
theorem test_execFrame_starts : (startFrame 69888#32 true (st .idle 0#32 0#32 [])).runMode = .running true := by decide

theorem test_render_screen : fbChunk (renderFrame (st .idle 0#32 0#32 [(0x4000, 0xB0#8)])).fb 48 6 = 0x07007777#32 ∧
    fbChunk (renderFrame (st .idle 0#32 0#32 [(0x4000, 0xB0#8)])).fb 48 38 = 0x77777777#32 := by decide +kernel
theorem test_execFrame_map : fbChunk (endFrame 5#32 true (st .idle 5#32 0#32 [(0x4820, 0xFF#8)])).fb 120 6 =
    0x00000000#32 := by decide +kernel

theorem test_fbRd_range : (stateOf (exec (.fbRd 280#16 0#32) State.reset)).map State.faultCode = some 0x05#8 := by decide
theorem test_fbRd_invalid : (stateOf (exec (.fbRd 279#16 43#32) State.reset)).map State.sent =
    some [⟨.host, 0xFF00000000000004#64⟩] := by decide
theorem test_statusRd : (stateOf (exec .statusRd { State.reset with
    runMode := .faulted, faultCode := 0x02#8, fbValid := true })).map State.sent =
    some [⟨.host, 0x0100000000000206#64⟩] := by decide
theorem test_refused : (stateOf (step { withWord .faulted .host 0x0100000000000000#64 with faultCode := 0x04#8 })).map
    State.sent = some [⟨.host, 0xFE00000000000004#64⟩] := by decide
theorem test_hostHolds : (stateOf (step (withWord (.running false) .host 0x0400000000000000#64))).map State.inbox =
    some [⟨.host, 0x0400000000000000#64⟩] := by decide

/-- Each word of the opcode table runs as the first command after reset (log entry 8). -/
theorem test_fetch_runs : [0x0100000000000000, 0x0200000000000000, 0x0300000000000000, 0x0400000000000000,
    0x0500000000000000, 0x0600000000000000, 0x0700000000000000, 0x0800000000000000, 0x0900000000000000,
    0x8100000000000000, 0x8200000000000000, 0x8300000000000000, 0x8400000000000000].map
      (fun w => (stateOf (step (State.reset.withFetchWord 64 w))).isSome) = List.replicate 13 true := by decide

/-! ### Source lines: 30_encoding.md R60, R61 -/

theorem test_line_memWr : assembleLine "MEM_WR 0x4000, 0xB0".toList = some [⟨.host, 0x02B0400000000000#64⟩] := by decide
theorem test_line_cpuAdv : assembleLine "cpu: CPU_ADV 4".toList = some [⟨.cpu, 0x8300000000000004#64⟩] := by decide
theorem test_line_load : assembleLine "LOAD 65535, 1, 0b10".toList =
    some [⟨.host, 0x0201FFFF00000000#64⟩, ⟨.host, 0x0202000000000000#64⟩] := by decide
theorem test_line_refused : assembleLine "MEM_RD 65536".toList = none ∧ assembleLine "MEM_WR 0, 256".toList = none ∧
    assembleLine "cpu: FRAME".toList = none ∧ assembleLine "TICK_RD 1".toList = none := by decide

/-! ### Witnesses: what the hypotheses of each obligation ask for, met together -/

theorem frameTicks_ne_zero : Config.frameTicks ≠ 0#32 := by
  intro h
  have := Config.frameTicks_pos
  rw [h] at this
  exact absurd this (by decide)

theorem witness_EncodeDecode : decode .host 0x0900000000000000#64 = .ok .statusRd := by decide

/-- Both clauses, at both ends of their ranges. -/
theorem witness_WrongPortIsIllegal :
    ∀ x ∈ [(Port.cpu, 0x0100000000000000#64, 0x01), (.cpu, 0x0900000000000000#64, 0x09),
      (.host, 0x8100000000000000#64, 0x81), (.host, 0x8400000000000000#64, 0x84)],
    takeNext (withWord .idle x.1 x.2.1).runMode (withWord .idle x.1 x.2.1).inbox = some (⟨x.1, x.2.1⟩, []) ∧
      (withWord .idle x.1 x.2.1).runMode ≠ .faulted ∧ (opField x.2.1).toNat = x.2.2 := by
  simp [withWord, st, takeNext, opField]

theorem witness_ReservedOpcodeIsIllegal :
    ∀ x ∈ [(0x0000000000000000#64, 0x00), (0x0A00000000000000#64, 0x0A), (0x7F00000000000000#64, 0x7F),
      (0x8000000000000000#64, 0x80), (0x8500000000000000#64, 0x85), (0xFF00000000000000#64, 0xFF)],
    takeNext (withWord .idle .host x.1).runMode (withWord .idle .host x.1).inbox = some (⟨.host, x.1⟩, []) ∧
      (withWord .idle .host x.1).runMode ≠ .faulted ∧ (opField x.1).toNat = x.2 := by
  simp [withWord, st, takeNext, opField]

/-- One word for each of the fields D, A and N. -/
theorem witness_UnusedFieldIsIllegal :
    takeNext (withWord .idle .host 0x0401000000000000#64).runMode (withWord .idle .host 0x0401000000000000#64).inbox =
      some (⟨.host, 0x0401000000000000#64⟩, []) ∧
    opField 0x0401000000000000#64 = Mnemonic.tickRd.opcode ∧ dField 0x0401000000000000#64 ≠ 0#8 ∧
    opField 0x0300000100000000#64 = Mnemonic.tickAdv.opcode ∧ aField 0x0300000100000000#64 ≠ 0#16 ∧
    opField 0x0100400000000001#64 = Mnemonic.memRd.opcode ∧ nField 0x0100400000000001#64 ≠ 0#32 := by decide

theorem witness_StepRunsDecoded :
    takeNext (withWord .idle .host 0x0600000000000000#64).runMode (withWord .idle .host 0x0600000000000000#64).inbox =
      some (⟨.host, 0x0600000000000000#64⟩, []) ∧ decode .host 0x0600000000000000#64 = .ok .render := by decide

/-- RUNNING with a held host word and a CPU word that decodes, and one that does not; only host words; IDLE with a word of
each port; FAULTED. -/
theorem witness_Acceptance :
    (RunMode.running true).isRunning = true ∧
    (∀ h ∈ [(⟨.host, 0x0400000000000000#64⟩ : PortWord)], h.port = .host) ∧
    decode .cpu 0x8400000000000000#64 = .ok .cpuStepEnd ∧
    decode .cpu 0x8500000000000000#64 = .error .reservedOpcode ∧
    (∀ h ∈ (withWord (.running true) .host 0x0400000000000000#64).inbox, h.port = .host) ∧
    (withWord .idle .host 0x0400000000000000#64).inbox = [⟨.host, 0x0400000000000000#64⟩] ∧
    decode .host 0x0400000000000000#64 = .ok .tickRd ∧
    (withWord .idle .cpu 0x8400000000000000#64).inbox = [⟨.cpu, 0x8400000000000000#64⟩] ∧
    (withWord .faulted .cpu 0x8400000000000000#64).runMode = .faulted := by decide

theorem witness_OneResponse :
    ∃ s t c others, takeNext s.runMode s.inbox = some (c, others) ∧ step s = .next t ∧ c.port = .host :=
  ⟨withWord .idle .host 0x0600000000000000#64, _, _, _, rfl, rfl, rfl⟩

/-- A step that starts a frame, and one that does not. -/
theorem witness_OneStepOutstanding :
    (∃ s t, step s = .next t ∧ t.runMode.isRunning = true ∧ s.runMode.isRunning = false) ∧
    ∃ s t, step s = .next t ∧ t.runMode.isRunning = false := by
  refine ⟨⟨withWord .idle .host 0x0500000000000000#64,
    requestStep { st .idle 0#32 0#32 [] with runMode := .running false }, ?_, rfl, rfl⟩,
    ⟨withWord .idle .host 0x0600000000000000#64, _, rfl, rfl⟩⟩
  have hrun : step (withWord .idle .host 0x0500000000000000#64) = exec .runFrame (st .idle 0#32 0#32 []) := rfl
  rw [hrun, exec_eq_next, after, onHost_idle (s := st .idle 0#32 0#32 []) rfl]
  rcases startFrame_cases Config.frameTicks false (st .idle 0#32 0#32 []) with ⟨h, -⟩ | ⟨-, he⟩
  · exact absurd h (Nat.not_le.mpr Config.frameTicks_pos)
  · rw [he]

theorem witness_PseudoCommands :
    65535 < 65536 ∧ 65535 + 0 < 65536 ∧ [0, 255] ≠ [] ∧ (∀ b ∈ [0, 255], b < 256) ∧ [0, 255][1]? = some 255 ∧ 0 < 1 := by decide

/-- A field that must be zero is not: the hypotheses of the encoding clauses of MEM_RD to CPU_STEP_END. -/
theorem witness_unused_fields : 0x01#8 ≠ 0#8 ∧ 0x8000#16 ≠ 0#16 ∧ 0x80000000#32 ≠ 0#32 := by decide

/-- MEM_RD, MEM_WR, TICK_RD, RENDER and STATUS_RD while IDLE; CPU_RD and CPU_WR while RUNNING; the gates in the other
modes. -/
theorem witness_modes :
    (st .idle 0#32 0#32 []).runMode = .idle ∧ (st (.running false) 0#32 0#32 []).runMode.isRunning = true ∧
    (st .faulted 0#32 0#32 []).runMode = .faulted ∧ (st .idle 0#32 0#32 []).runMode.isRunning = false := by decide

/-- A host-port command as the first one after reset. -/
theorem step_first (i : Instr) (h : i.port = .host) :
    step { State.reset with inbox := [⟨.host, encode i⟩] } = .next (after i State.reset) := by
  have hdec : decode .host (encode i) = .ok i := Laws.decode_eq_ok.mpr
    ⟨i.mnemonic, Laws.opField_encode i, h, Laws.unusedFieldsZero_encode i, (Laws.assemble_encode i).symm⟩
  rw [step_of_decode (c := ⟨.host, encode i⟩) (others := []) rfl hdec, exec_eq_next]
  rfl

/-- MEM_WR of a byte other than the one that is there. -/
theorem witness_MemoryWriters : ∃ (s t : State) (a : Addr), step s = .next t ∧ t.mem.read a ≠ s.mem.read a := by
  refine ⟨_, _, 0xFFFF#16, step_first (.memWr 0xFFFF#16 (Config.initMemory 0xFFFF#16 + 1#8)) rfl, ?_⟩
  simp only [after, onHost_idle (s := State.reset) rfl, writeByte, respond_mem, Memory.read_write_self]
  intro h
  exact absurd (BitVec.add_right_eq_self.mp h) (by decide)

theorem witness_CanonicalMemory : ∃ m m' : Memory, m.wf ∧ m'.wf ∧ ∀ a : Addr, m.read a = m'.read a :=
  ⟨_, _, Memory.wf_write Memory.wf_nil 0x4000#16 0xB0#8, Memory.wf_write Memory.wf_nil 0x4000#16 0xB0#8, fun _ => rfl⟩

/-- TICK_ADV and CPU_ADV: the largest sum that fits, and the smallest that does not. -/
theorem witness_advances :
    (st .idle 5#32 0#32 []).ticks.toNat + (0xFFFFFFFA#32).toNat < 2 ^ 32 ∧
    2 ^ 32 ≤ (st .idle 5#32 0#32 []).ticks.toNat + (0xFFFFFFFB#32).toNat ∧
    (st (.running true) 5#32 0#32 []).runMode.isRunning = true := by decide

/-- A state in the middle of a step, with the invariant: TICKS and STEP_ACC at FRAME_TICKS. -/
theorem inv_atBoundary (m : Bool) : Inv (st (.running m) Config.frameTicks Config.frameTicks []) where
  memCanonical := Memory.wf_nil
  faultedIff := by simp [st, State.reset]
  faultCodeProduced := by simp [st, State.reset]
  stepStartedBelow := fun _ => ⟨Nat.le_refl _, by
    simp only [st, Nat.sub_self]; exact Config.frameTicks_pos⟩
  fbComplete := fun h => nomatch h

theorem witness_CpuAdv : ∃ s : State, s.runMode.isRunning = true ∧ s.ticks.toNat + (0#32).toNat < 2 ^ 32 ∧ Inv s :=
  ⟨st (.running true) Config.frameTicks Config.frameTicks [], rfl, Config.frameTicks.isLt, inv_atBoundary true⟩

theorem witness_EndFrame : (69888#32).toNat ≤ (st .idle 69888#32 0#32 []).ticks.toNat := by decide

/-- RUN_FRAME and EXEC_FRAME: at the boundary and below it. -/
theorem witness_frames :
    (st .idle Config.frameTicks 0#32 []).runMode = .idle ∧
    Config.frameTicks.toNat ≤ (st .idle Config.frameTicks 0#32 []).ticks.toNat ∧
    (st .idle 0#32 0#32 []).ticks.toNat < Config.frameTicks.toNat :=
  ⟨rfl, Nat.le_refl _, Config.frameTicks_pos⟩

/-- CPU_STEP_END: no progress; progress below the boundary; progress at it. -/
theorem witness_CpuStepEnd :
    (st (.running false) 0#32 0#32 []).stepAcc = 0#32 ∧
    ((st (.running true) 0#32 1#32 []).stepAcc ≠ 0#32 ∧
      (st (.running true) 0#32 1#32 []).ticks.toNat < Config.frameTicks.toNat) ∧
    ((st (.running true) Config.frameTicks Config.frameTicks []).stepAcc ≠ 0#32 ∧
      Config.frameTicks.toNat ≤ (st (.running true) Config.frameTicks Config.frameTicks []).ticks.toNat) :=
  ⟨rfl, ⟨by decide, Config.frameTicks_pos⟩, ⟨frameTicks_ne_zero, Nat.le_refl _⟩⟩

theorem stepsTotal_ones (n : Nat) : stepsTotal (List.replicate n [.cpuRd 0#16, .cpuAdv 1#32]) = n := by
  simp [stepsTotal, stepTotal, reported]

/-- Steps of one tick each, one fewer than FRAME_TICKS, then a last step of one tick that reaches FRAME_TICKS exactly. -/
theorem witness_CarryOver :
    ∃ (s : State) (steps : List (List Instr)) (last : List Instr),
      s.runMode = .idle ∧ s.ticks.toNat < Config.frameTicks.toNat ∧ (∀ body ∈ steps, StepOk body) ∧
      s.ticks.toNat + stepsTotal steps < Config.frameTicks.toNat ∧ StepOk last ∧
      Config.frameTicks.toNat ≤ s.ticks.toNat + stepsTotal steps + stepTotal last ∧
      s.ticks.toNat + stepsTotal steps + stepTotal last < 2 ^ 32 := by
  have hpos := Config.frameTicks_pos
  have hlt := Config.frameTicks.isLt
  have hlast : stepTotal [.cpuRd 0#16, .cpuAdv 1#32] = 1 := rfl
  have hok : StepOk [.cpuRd 0#16, .cpuAdv 1#32] := ⟨rfl, by rw [hlast]; omega⟩
  refine ⟨State.reset, List.replicate (Config.frameTicks.toNat - 1) [.cpuRd 0#16, .cpuAdv 1#32],
    [.cpuRd 0#16, .cpuAdv 1#32], rfl, hpos, fun body hb => ?_, ?_, hok, ?_, ?_⟩
  · rw [List.eq_of_mem_replicate hb]; exact hok
  all_goals
    have h0 : State.reset.ticks.toNat = 0 := rfl
    rw [stepsTotal_ones, h0]
    omega

theorem witness_PostBoundaryBound :
    ∃ s t : State, Inv s ∧ s.runMode.isRunning = true ∧ exec .cpuStepEnd s = .next t ∧ t.runMode = .idle ∧
      s.stepAcc.toNat ≤ Config.frameTicks.toNat := by
  refine ⟨st (.running true) Config.frameTicks Config.frameTicks [], _, inv_atBoundary true, rfl, exec_eq_next _ _, ?_,
    Nat.le_refl _⟩
  rw [after, onCpu_running rfl]
  rcases endStep_cases Config.frameTicks true (st (.running true) Config.frameTicks Config.frameTicks []) with
    ⟨h, -⟩ | ⟨-, -, he⟩ | ⟨-, h, -⟩
  · exact absurd h frameTicks_ne_zero
  · rw [he, endFrame_runMode]
  · exact absurd h (Nat.lt_irrefl _)

theorem witness_FrameStepsBounded :
    ∃ s t, s.runMode = .idle ∧ s.ticks.toNat < Config.frameTicks.toNat ∧
      runAll (frameCommand true :: stepCommands []) s = .next t ∧ t.runMode.isRunning = true := by
  refine ⟨State.reset, requestStep { State.reset with runMode := .running true }, rfl, Config.frameTicks_pos, ?_, rfl⟩
  simp only [frameCommand, if_true, runAll, exec_eq_next, after, onHost_idle (s := State.reset) rfl]
  rcases startFrame_cases Config.frameTicks true State.reset with ⟨h, -⟩ | ⟨-, he⟩
  · exact absurd h (Nat.not_le.mpr Config.frameTicks_pos)
  · rw [he]; rfl

/-- A RUN_FRAME right after reset. -/
def frameBegun : State := requestStep { State.reset with runMode := .running false }

/-- That frame after one CPU_ADV of FRAME_TICKS. -/
def frameSpent : State :=
  respond .cpu .done 0#32 { frameBegun with ticks := Config.frameTicks, stepAcc := Config.frameTicks }

theorem after_runFrame_reset : after .runFrame State.reset = frameBegun := by
  rw [after, onHost_idle (s := State.reset) rfl]
  rcases startFrame_cases Config.frameTicks false State.reset with ⟨h, -⟩ | ⟨-, he⟩
  · exact absurd h (Nat.not_le.mpr Config.frameTicks_pos)
  · exact he

theorem after_cpuAdv_frameBegun : after (.cpuAdv Config.frameTicks) frameBegun = frameSpent := by
  have hticks : frameBegun.ticks = 0#32 := rfl
  have hacc : frameBegun.stepAcc = 0#32 := rfl
  rw [after, onCpu_running (s := frameBegun) rfl]
  rcases cpuAdvance_cases Config.frameTicks frameBegun with ⟨h, -⟩ | ⟨-, he⟩
  · have := Config.frameTicks.isLt
    rw [hticks, show (0#32).toNat = 0 from rfl] at h
    omega
  · rw [he, hticks, hacc, BitVec.zero_add]; rfl

/-- A frame that one step of FRAME_TICKS ticks has ended: the second clause of FrameStepsBounded. -/
theorem witness_FrameStepsBounded_ended :
    ∃ t, (∀ body ∈ [[Instr.cpuAdv Config.frameTicks]], body.all isStepCommand = true) ∧
      runAll (frameCommand false :: stepCommands [[.cpuAdv Config.frameTicks]]) State.reset = .next t ∧
      t.runMode = .idle := by
  refine ⟨after .cpuStepEnd frameSpent, by decide, ?_, ?_⟩
  · change runAll [.runFrame, .cpuAdv Config.frameTicks, .cpuStepEnd] State.reset = _
    simp only [runAll, exec_eq_next, after_runFrame_reset, after_cpuAdv_frameBegun]
  · rw [after, onCpu_running (s := frameSpent) rfl]
    rcases endStep_cases Config.frameTicks false frameSpent with ⟨h, -⟩ | ⟨-, -, he⟩ | ⟨-, h, -⟩
    · exact absurd h frameTicks_ne_zero
    · rw [he, endFrame_runMode]
    · exact absurd h (Nat.lt_irrefl _)

/-- A cell that no command has written: after reset, and after a step that writes another one. -/
theorem witness_Unwritten :
    (Unwritten 0x4000#16 State.reset ∧ State.reset.runMode = .idle) ∧
    ∃ t, Unwritten 0x4000#16 t ∧ t.runMode = .idle ∧ t.sent ≠ [] := by
  refine ⟨⟨.reset, rfl⟩, after (.memWr 0x4001#16 0xB0#8) State.reset, ?_, rfl, nofun⟩
  refine .step (.arrive [⟨.host, encode (.memWr 0x4001#16 0xB0#8)⟩] .reset) (step_first _ rfl) fun data => ?_
  have hd : decode .host (encode (.memWr 0x4001#16 0xB0#8)) = .ok (.memWr 0x4001#16 0xB0#8) := by decide
  constructor <;> rintro ⟨c, others, htake, hdec⟩ <;> cases htake <;> rw [hd] at hdec <;> injection hdec with h
  · injection h with h _
    exact absurd h (by decide)
  · cases h

/-- The host port while RUNNING: a step that takes the word behind a waiting host word. -/
theorem witness_HostPortHolds :
    ∃ s t : State, s.runMode.isRunning = true ∧ step s = .next t ∧ waitingHost s = [⟨.host, 0x0400000000000000#64⟩] ∧
      t.inbox ≠ s.inbox ∧ Instr.tickRd.port = .host :=
  ⟨{ st (.running true) 0#32 0#32 [] with inbox := [⟨.host, 0x0400000000000000#64⟩, ⟨.cpu, 0x8300000000000004#64⟩] },
    _, rfl, rfl, rfl, by decide, rfl⟩

/-- Two states with different memories and frame buffer flags. -/
theorem witness_SyncIndependent :
    ∃ s s' t t' : State, s.ticks = s'.ticks ∧ s.runMode = s'.runMode ∧ s.stepAcc = s'.stepAcc ∧
      s.faultCode = s'.faultCode ∧ s.mem ≠ s'.mem ∧ exec (.tickAdv 1#32) s = .next t ∧ exec (.tickAdv 1#32) s' = .next t' :=
  ⟨State.reset, { State.reset with mem := [(0, 1#8)], fbValid := true }, _, _, rfl, rfl, rfl, rfl, by decide, rfl, rfl⟩

theorem witness_TicksWriters : ∃ s t, step s = .next t ∧ t.ticks ≠ s.ticks :=
  ⟨withWord .idle .host 0x0300000000000064#64, _, rfl, by decide⟩

/-- Chunks, pixels, lines and columns at the ends of their ranges. -/
theorem witness_ranges : (279 < 280 ∧ 43 < 44 ∧ 7 < 8) ∧ (191 < 192 ∧ 31 < 32) ∧ inScreen 0x4000#16 ∧ inScreen 0x57FF#16 := by
  unfold inScreen; decide

/-- The three cases of the wrap points. -/
theorem witness_WrapPoints : (190 < 191 ∧ 190 % 8 ≠ 7) ∧ (7 < 191 ∧ 7 % 8 = 7 ∧ 7 % 64 ≠ 63) ∧ (127 < 191 ∧ 127 % 64 = 63) := by
  decide

theorem witness_BorderInvariance : isBorder 47 20 ∧ isBorder 240 20 ∧ isBorder 48 5 ∧ isBorder 239 38 := by
  unfold isBorder; decide

/-- The step that ends an EXEC_FRAME, and one in which it faults. -/
theorem witness_ExecFrame :
    (∃ s t : State, s.runMode = .running true ∧ step s = .next t ∧ t.runMode = .idle) ∧
    ∃ s t : State, s.runMode = .running true ∧ step s = .next t ∧ t.runMode = .faulted := by
  refine ⟨⟨{ st (.running true) Config.frameTicks Config.frameTicks [] with
      inbox := [⟨.cpu, 0x8400000000000000#64⟩] },
      after .cpuStepEnd (st (.running true) Config.frameTicks Config.frameTicks []), rfl, ?_, ?_⟩,
    ⟨withWord (.running true) .cpu 0x8500000000000000#64, _, rfl, rfl, rfl⟩⟩
  · rw [step_of_decode (c := ⟨.cpu, 0x8400000000000000#64⟩) (others := []) (i := .cpuStepEnd) rfl rfl, exec_eq_next]
    rfl
  · rw [after, onCpu_running rfl]
    rcases endStep_cases Config.frameTicks true (st (.running true) Config.frameTicks Config.frameTicks []) with
      ⟨h, -⟩ | ⟨-, -, he⟩ | ⟨-, h, -⟩
    · exact absurd h frameTicks_ne_zero
    · rw [he, endFrame_runMode]
    · exact absurd h (Nat.lt_irrefl _)

theorem witness_ActiveRow : 191 < 192 ∧ 5 < 6 ∧ (38 ≤ 38 ∧ 43 < 44) ∧ 31 < 32 := by decide

theorem witness_FrameDependsOnScreenOnly :
    ∃ s s' : State, s.mem ≠ s'.mem ∧ ∀ a : Addr, inScreen a → s.mem.read a = s'.mem.read a := by
  refine ⟨State.reset, st .idle 0#32 0#32 [(0x5800, 0x00#8)], by decide, fun a ha => ?_⟩
  have h : ¬ 0x5800 = a.toNat := by unfold inScreen at ha; omega
  simp [State.reset, st, Memory.read, Memory.find, h]

/-- FB_RD: beyond each bound; the last chunk, without and with a frame. -/
theorem witness_FbRd :
    280 ≤ (280#16).toNat ∧ 44 ≤ (44#32).toNat ∧ (279#16).toNat < 280 ∧ (43#32).toNat < 44 ∧
    State.reset.fbValid = false ∧ (renderFrame State.reset).fbValid = true ∧
    (renderFrame State.reset).runMode = .idle := ⟨by decide, by decide, by decide, by decide, rfl, rfl, rfl⟩

theorem witness_FrameBufferWriters : ∃ s t, step s = .next t ∧ t.fbValid ≠ s.fbValid :=
  ⟨withWord .idle .host 0x0600000000000000#64, _, rfl, fun h => nomatch h⟩

theorem witness_FaultsArePrecise : ∃ s t, step s = .next t ∧ s.runMode ≠ .faulted ∧ t.runMode = .faulted :=
  ⟨withWord .idle .host 0x0000000000000000#64, _, rfl, nofun, rfl⟩

/-- One step for each fault code that a block can produce (95_test_vectors.md 2.6 to 2.9). -/
theorem witness_FaultCauses :
    [withWord .idle .host 0x0000000000000000#64, withWord (.running false) .cpu 0x8400000000000000#64,
      { withWord .idle .host 0x0300000000000001#64 with ticks := 0xFFFFFFFF#32 },
      withWord .idle .host 0x080001170000002B#64, withWord .idle .host 0x0800011800000000#64].map
      (fun s => (stateOf (step s)).map fun t => (t.runMode, t.faultCode)) =
    [some (.faulted, 0x01#8), some (.faulted, 0x02#8), some (.faulted, 0x03#8), some (.faulted, 0x04#8),
      some (.faulted, 0x05#8)] := by decide

theorem witness_FaultDuringFrame : ∃ s t, s.runMode.isRunning = true ∧ step s = .next t ∧ t.runMode = .faulted ∧
    s.runMode = .running true :=
  ⟨withWord (.running true) .cpu 0x8500000000000000#64, _, rfl, rfl, rfl, rfl⟩

theorem witness_FaultEntry : (st .idle 0#32 0#32 []).runMode.isRunning = false ∧
    (st (.running true) 0#32 0#32 []).runMode.isRunning = true := by decide

theorem witness_FaultedState :
    (withWord .faulted .host 0x0900000000000000#64).inbox = [⟨.host, 0x0900000000000000#64⟩] ∧
    (withWord .faulted .cpu 0x0900000000000000#64).inbox = [⟨.cpu, 0x0900000000000000#64⟩] ∧
    (st .faulted 0#32 0#32 []).inbox = [] ∧ (withWord .faulted .host 0x0900000000000000#64).runMode = .faulted := by
  decide

theorem inv_idle (inbox : List PortWord) : Inv { State.reset with inbox := inbox } where
  memCanonical := Memory.wf_nil
  faultedIff := by simp [State.reset]
  faultCodeProduced := by simp [State.reset]
  stepStartedBelow := fun h => nomatch h
  fbComplete := fun h => nomatch h

theorem witness_FaultCodeWrittenOnce : ∃ s t, Inv s ∧ step s = .next t ∧ t.faultCode ≠ s.faultCode :=
  ⟨{ State.reset with inbox := [⟨.host, 0#64⟩] }, _, inv_idle _, rfl, by decide⟩

theorem witness_StepKeepsInv : ∃ s t, Inv s ∧ step s = .next t ∧ t.runMode = .idle ∧ t.fbValid = true :=
  ⟨{ State.reset with inbox := [⟨.host, 0x0600000000000000#64⟩] }, _, inv_idle _, rfl, rfl, rfl⟩

theorem witness_ResetState : (279#16).toNat < 280 ∧ (43#32).toNat < 44 := by decide

end Sys2Proof.Tests
end

section
/-! The build-time check of the geometry (00_scope.md R12). -/

namespace Sys2Proof.Proofs

/-- The remainder test of R12, dimension by dimension, is divisibility by PIXELS_PER_CHUNK; a chunk of no pixels
divides only a dimension of 0, in the test as in the claim. -/
theorem geometry_wellFormed_iff_dvd (g : Geometry) : g.wellFormed = true ↔
    g.pixelsPerChunk ∣ g.screenWidth ∧ g.pixelsPerChunk ∣ g.screenHeight ∧ g.pixelsPerChunk ∣ g.borderLeft ∧
    g.pixelsPerChunk ∣ g.borderRight ∧ g.pixelsPerChunk ∣ g.borderTop ∧ g.pixelsPerChunk ∣ g.borderBottom := by
  simp only [Geometry.wellFormed, List.all_cons, List.all_nil, Bool.and_eq_true, and_true, beq_iff_eq,
    Nat.dvd_iff_mod_eq_zero]

/-- Settles O55: the check is divisibility of each dimension, which the numbers of R8 satisfy. -/
theorem geometryCheck : Obligations.GeometryCheck := by
  have hfixed : Config.geometry.wellFormed = true := (geometry_wellFormed_iff_dvd _).2 (by decide)
  exact ⟨hfixed, geometry_wellFormed_iff_dvd⟩

end Sys2Proof.Proofs
end

section
/-! FAULT_CODE over one step (10_state.md R22): only a fault entry writes it, and a fault is raised only outside FAULTED. -/

namespace Sys2Proof.Proofs
open Sys2Proof.Machine Sys2Proof.Safety

/-- A command keeps FAULT_CODE, or it is the fault that moves RUN_MODE to FAULTED. -/
theorem effect_faultCode_eq_or_enters_faulted {i : Instr} {s t : State} (h : Effect i s t) :
    t.faultCode = s.faultCode ∨ (s.runMode ≠ .faulted ∧ t.runMode = .faulted) := by
  cases h with
  | cpuWhileIdle _ mode | tickAdvOverflow mode _ | fbRdRange mode _ | fbRdInvalid mode _ _ _
  | cpuAdvOverflow mode _ | stepEndZero mode _ => exact .inr ⟨by simp [mode], raise_runMode _ _ _⟩
  | runFrameEnds | execFrameEnds | stepEndFrame => exact .inl (endFrame_faultCode _ _ _)
  | held | refused | status | memRd | memWr | tickAdv | tickRd | runFrameStarts | execFrameStarts | render | fbRd
  | cpuRd | cpuWr | cpuAdv | stepEndNext => exact .inl rfl

/-- A step keeps FAULT_CODE, or it is the fault that moves RUN_MODE to FAULTED. -/
theorem step_faultCode_eq_or_enters_faulted {s t : State} (h : step s = .next t) :
    t.faultCode = s.faultCode ∨ (s.runMode ≠ .faulted ∧ t.runMode = .faulted) := by
  rcases step_effect h with ⟨-, rfl⟩ | ⟨c, others, i, -, -, heffect⟩ | ⟨c, others, e, -, -, rfl⟩
  · exact .inl rfl
  · exact effect_faultCode_eq_or_enters_faulted (s := { s with inbox := others }) heffect
  · rcases rejectWord_cases c.port { s with inbox := others } with ⟨-, hreject⟩ | ⟨hmode, hreject⟩ <;> rw [hreject]
    · exact .inl (refuse_faultCode _ _)
    · exact .inr ⟨hmode, raise_runMode _ _ _⟩

/-- Settles O50: a step that changes FAULT_CODE enters FAULTED, and by the invariant FAULT_CODE was 0 before. -/
theorem faultCodeWrittenOnce : Obligations.FaultCodeWrittenOnce := by
  refine ⟨rfl, fun s t hinv hstep hchanged => ?_⟩
  obtain ⟨hbefore, hafter⟩ := (step_faultCode_eq_or_enters_faulted hstep).resolve_left hchanged
  have hzero : s.faultCode = 0#8 := not_not.mp (mt hinv.faultedIff.mpr hbefore)
  exact ⟨hzero, hbefore, hafter⟩

end Sys2Proof.Proofs
end

section
/-! The encoding at the ports (30_encoding.md R49 to R54, R62): a step that takes a word of no command raises
ILLEGAL_COMMAND, and which words those are, by opcode, by port and by unused field. -/

namespace Sys2Proof.Proofs
open Sys2Proof.Machine Sys2Proof.Safety

/-! ### The step that rejects a word -/

/-- The fault entry for ILLEGAL_COMMAND, where a host word is none that came during a frame (R56). -/
theorem raise_illegalCommand {p : Port} {s : State} (hport : s.runMode.isRunning = true → p = .cpu) :
    raise p .illegalCommand s = illegal s p := by
  cases hrun : s.runMode.isRunning with
  | false =>
    rw [raise_of_not_running hrun, illegal, if_neg (by simp [hrun])]
    rfl
  | true =>
    cases hport hrun
    cases hmode : s.runMode with
    | running m =>
      rw [raise_cpu_running hmode, illegal, if_pos hrun]
      rfl
    | idle | faulted => simp [hmode, RunMode.isRunning] at hrun

theorem rejectWord_eq_illegal {p : Port} {s : State} (hmode : s.runMode ≠ .faulted)
    (hport : s.runMode.isRunning = true → p = .cpu) : rejectWord p s = illegal s p := by
  obtain ⟨-, hraise⟩ := (rejectWord_cases p s).resolve_left fun h => hmode h.1
  rw [hraise, raise_illegalCommand hport]

/-- Outside FAULTED, a step that takes a word of no command raises ILLEGAL_COMMAND (R52 to R54). -/
theorem step_eq_illegal_of_decode_error {s : State} {c : PortWord} {others : List PortWord} {e : DecodeError}
    (htake : takeNext s.runMode s.inbox = some (c, others)) (hmode : s.runMode ≠ .faulted)
    (hdecode : decode c.port c.word = .error e) : step s = .next (illegal { s with inbox := others } c.port) := by
  rw [step_of_reject htake hdecode]
  exact congrArg Host.Outcome.next (rejectWord_eq_illegal hmode (takeNext_port htake))

/-! ### The words that decode to no command -/

theorem decode_eq_reservedOpcode {p : Port} {w : Word} (h : mnemonicOfOpcode (opField w) = none) :
    decode p w = .error .reservedOpcode := by
  simp [decode, h]

theorem decode_eq_wrongPort {p : Port} {w : Word} {m : Mnemonic} (hop : opField w = m.opcode) (hport : m.port ≠ p) :
    decode p w = .error .wrongPort := by
  simp [decode, hop, Laws.mnemonicOfOpcode_opcode, hport]

theorem decode_eq_unusedFieldNonZero {p : Port} {w : Word} {m : Mnemonic} (hop : opField w = m.opcode)
    (hport : m.port = p) (hfields : unusedFieldsZero m.format w = false) :
    decode p w = .error .unusedFieldNonZero := by
  simp [decode, hop, Laws.mnemonicOfOpcode_opcode, hport, hfields]

/-- The check of R54 fails exactly for a non-zero D, A or N that the format does not use. -/
theorem unusedFieldsZero_eq_false_iff (f : Format) (w : Word) : unusedFieldsZero f w = false ↔
    (f.usesD = false ∧ dField w ≠ 0#8) ∨ (f.usesA = false ∧ aField w ≠ 0#16) ∨
      (f.usesN = false ∧ nField w ≠ 0#32) := by
  simp only [unusedFieldsZero, Bool.and_eq_false_iff, Bool.or_eq_false_iff, beq_eq_false_iff_ne, or_assoc]

/-! ### The rows of the opcode map -/

/-- Every opcode of the ranges of R51 has a row. -/
theorem exists_opcode_eq {op : Byte}
    (h : (1 ≤ op.toNat ∧ op.toNat ≤ 9) ∨ (0x81 ≤ op.toNat ∧ op.toNat ≤ 0x84)) : ∃ m : Mnemonic, op = m.opcode := by
  have hrow : mnemonicOfOpcode op ≠ none := by
    rw [Ne, Laws.mnemonicOfOpcode_eq_none]
    omega
  obtain ⟨m, hm⟩ := Option.ne_none_iff_exists'.mp hrow
  exact ⟨m, Laws.mnemonicOfOpcode_eq_some.mp hm⟩

/-- The host rows of R51 are those up to 0x09. -/
theorem port_eq_host_iff (m : Mnemonic) : m.port = .host ↔ m.opcode.toNat ≤ 0x09 := by
  cases m <;> decide

/-- A row's commands are of that row, whatever the word that gives the operands. -/
theorem mnemonic_assemble (m : Mnemonic) (w : Word) : (m.assemble w).mnemonic = m := by
  cases m <;> rfl

/-- RKIND of a response stands where a command has its opcode (R57). -/
theorem opField_responseWord (k : RespKind) (v : BitVec 32) : opField (responseWord k v) = k.code := by
  apply BitVec.eq_of_getLsbD_eq
  intro i hi
  simp only [opField, responseWord, BitVec.getLsbD_extractLsb', BitVec.getLsbD_append, hi, decide_true, Bool.true_and]
  simp [show ¬ (56 + i < 32) by omega, show ¬ (56 + i - 32 < 24) by omega, show 56 + i - 32 - 24 = i by omega]

/-- A command's word is accepted on its port, and is that command. -/
theorem decode_port_encode (i : Instr) : decode i.port (encode i) = .ok i :=
  Laws.decode_eq_ok.mpr
    ⟨i.mnemonic, Laws.opField_encode i, rfl, Laws.unusedFieldsZero_encode i, (Laws.assemble_encode i).symm⟩

/-! ### The statements -/

/-- Settles O4: the opcode has a row, by its range, and the row's port is the other one. -/
theorem wrongPortIsIllegal : Obligations.WrongPortIsIllegal := by
  intro s c others htake hmode hop
  obtain ⟨m, hm⟩ : ∃ m : Mnemonic, opField c.word = m.opcode := exists_opcode_eq (by omega)
  have hport : m.port ≠ c.port := by
    rcases hop with ⟨hc, -, hle⟩ | ⟨hc, hge, -⟩
    · rw [hc, (port_eq_host_iff m).mpr (hm ▸ hle)]
      decide
    · rw [hc, Ne, port_eq_host_iff, ← hm]
      omega
  exact step_eq_illegal_of_decode_error htake hmode (decode_eq_wrongPort hm hport)

/-- Settles O5: the reserved opcodes are those without a row, and no RKIND is 0x80. -/
theorem reservedOpcodeIsIllegal : Obligations.ReservedOpcodeIsIllegal := by
  refine ⟨fun s c others htake hmode hop => ?_, fun op hop => ?_, by decide, by decide, fun k v => ?_⟩
  · have hreserved : mnemonicOfOpcode (opField c.word) = none := Laws.mnemonicOfOpcode_eq_none.mpr (by omega)
    exact step_eq_illegal_of_decode_error htake hmode (decode_eq_reservedOpcode hreserved)
  · obtain ⟨m, rfl⟩ := exists_opcode_eq hop
    exact ⟨m.assemble 0#64, by rw [Laws.opField_encode, mnemonic_assemble]⟩
  · rw [opField_responseWord]
    cases k <;> decide

/-- Settles O6: the row and its port are right, so the check of the unused fields is what rejects the word. -/
theorem unusedFieldIsIllegal : Obligations.UnusedFieldIsIllegal := by
  intro s c others m htake hmode hop hport hfields
  have hcheck : unusedFieldsZero m.format c.word = false := (unusedFieldsZero_eq_false_iff _ _).mpr hfields
  exact step_eq_illegal_of_decode_error htake hmode (decode_eq_unusedFieldNonZero hop hport hcheck)

/-- Settles O3: each word is what the encoder writes, and so the decoder reads the command back. -/
theorem workedEncodings : Obligations.WorkedEncodings := by
  intro x hx
  have hwritten : encode x.1 = x.2 := by
    revert x
    decide
  exact ⟨hwritten, hwritten ▸ decode_port_encode x.1⟩

end Sys2Proof.Proofs
end

section
/-! The pseudo-commands (30_encoding.md R61): each expansion as a map over its offsets, and the words it gives. -/

namespace Sys2Proof.Proofs
open Sys2Proof.Machine Sys2Proof.Safety

/-- The address after the first, at an offset, is the next offset from the first. -/
theorem addr_succ_add_ofNat (a : Addr) (k : Nat) : a + 1#16 + BitVec.ofNat 16 k = a + BitVec.ofNat 16 (k + 1) := by
  rw [BitVec.ofNat_add, BitVec.add_assoc, BitVec.add_comm 1#16]

theorem loadBytes_eq_mapIdx (a : Addr) (bytes : List Nat) :
    loadBytes a bytes = bytes.mapIdx fun k b => .memWr (a + BitVec.ofNat 16 k) (BitVec.ofNat 8 b) := by
  induction bytes generalizing a with
  | nil => rfl
  | cons b rest ih => simp [loadBytes, ih, List.mapIdx_cons, addr_succ_add_ofNat]

/-- FILL is LOAD of one byte repeated. -/
theorem fillBytes_eq_loadBytes (a : Addr) (n v : Nat) :
    fillBytes a n (BitVec.ofNat 8 v) = loadBytes a (List.replicate n v) := by
  induction n generalizing a with
  | zero => rfl
  | succ n ih => simp [fillBytes, loadBytes, List.replicate_succ, ih]

theorem dumpBytes_eq_map_range (a : Addr) (n : Nat) :
    dumpBytes a n = (List.range n).map fun k => .memRd (a + BitVec.ofNat 16 k) := by
  induction n generalizing a with
  | zero => rfl
  | succ n ih => simp [dumpBytes, ih, List.range_succ_eq_map, addr_succ_add_ofNat, Function.comp_def]

/-- The words of a line whose operands fit, on the host port. -/
theorem words_host {line : Source} (h : line.wellFormed = true) :
    line.words .host = some (line.expand.map (issued .host)) := by
  simp only [Source.words, h, Bool.true_and]
  rfl

/-- The `k`-th word of a run of MEM_WR, byte by byte. -/
theorem issued_loadBytes_getElem? (addr : Nat) (bytes : List Nat) (k : Nat) :
    ((loadBytes (BitVec.ofNat 16 addr) bytes).map (issued .host))[k]? =
      bytes[k]?.map fun b => issued .host (.memWr (BitVec.ofNat 16 (addr + k)) (BitVec.ofNat 8 b)) := by
  simp [loadBytes_eq_mapIdx, BitVec.ofNat_add, Function.comp_def]

/-- Settles O11: the operands fit, so the line gives the words of its expansion, whose length and whose word at each
offset the expansion's map form tells. -/
theorem pseudoCommands : Obligations.PseudoCommands := by
  refine ⟨fun addr bytes haddr hne hbytes => ?_, fun addr n v haddr hv => ?_, fun addr n haddr => ?_, rfl⟩
  · have hfits : (Source.load addr bytes).wellFormed = true := by
      simpa [Source.wellFormed, fitsA, fitsD, fitsField, haddr, hne] using hbytes
    refine ⟨_, words_host hfits, by simp [Source.expand, loadBytes_eq_mapIdx], fun k b hk => ?_⟩
    rw [Source.expand, issued_loadBytes_getElem?, hk]
    rfl
  · have hfits : (Source.fill addr n v).wellFormed = true := by
      simp [Source.wellFormed, fitsA, fitsD, fitsField, haddr, hv]
    refine ⟨_, words_host hfits, by simp [Source.expand, fillBytes_eq_loadBytes, loadBytes_eq_mapIdx], fun k hk => ?_⟩
    rw [Source.expand, fillBytes_eq_loadBytes, issued_loadBytes_getElem?, List.getElem?_replicate_of_lt hk]
    rfl
  · have hfits : (Source.dump addr n).wellFormed = true := by
      simp [Source.wellFormed, fitsA, fitsField, haddr]
    refine ⟨_, words_host hfits, by simp [Source.expand, dumpBytes_eq_map_range], fun k hk _ => ?_⟩
    simp [Source.expand, dumpBytes_eq_map_range, List.getElem?_range hk, BitVec.ofNat_add]

end Sys2Proof.Proofs
end

section
/-! The store access commands (40_store_access.md R63 to R66): the gates of the two ports, the words with a non-zero unused
field, what a read and a write answer, and which steps write the memory. -/

namespace Sys2Proof.Proofs
open Sys2Proof.Machine Sys2Proof.Safety

/-! ### The gates of the two ports -/

/-- In FAULTED every command but STATUS_RD is REFUSED on its own port (R100). -/
theorem after_eq_refuse_of_faulted {i : Instr} {s : State} (hi : i ≠ .statusRd) (hmode : s.runMode = .faulted) :
    after i s = refuse i.port s := by
  cases i with
  | statusRd => exact absurd rfl hi
  | memRd | memWr | tickAdv | tickRd | runFrame | render | execFrame | fbRd => exact onHost_faulted hmode _ _
  | cpuRd | cpuWr | cpuAdv | cpuStepEnd => exact onCpu_faulted hmode _

/-- Outside a frame every CPU-port command is ILLEGAL_COMMAND (R56). -/
theorem after_eq_raise_of_idle {i : Instr} {s : State} (hport : i.port = .cpu) (hmode : s.runMode = .idle) :
    after i s = raise .cpu .illegalCommand s := by
  cases i with
  | cpuRd | cpuWr | cpuAdv | cpuStepEnd => exact onCpu_idle hmode _
  | memRd | memWr | tickAdv | tickRd | runFrame | render | execFrame | fbRd | statusRd => cases hport

theorem hostGate_of_port {i : Instr} (hport : i.port = .host) (hi : i ≠ .statusRd) : HostGate i := by
  intro s hmode
  rw [exec_eq_next, after_eq_refuse_of_faulted hi hmode, hport]
  rfl

theorem cpuGate_of_port {i : Instr} (hport : i.port = .cpu) : CpuGate i := by
  have hi : i ≠ .statusRd := by
    rintro rfl
    cases hport
  refine fun s => ⟨fun hmode => ?_, fun hmode => ?_⟩
  · have hidle : s.runMode.isRunning = false := by rw [hmode]; rfl
    rw [exec_eq_next, after_eq_raise_of_idle hport hmode, raise_of_not_running hidle]
    rfl
  · rw [exec_eq_next, after_eq_refuse_of_faulted hi hmode, hport]
    rfl

/-- While RUNNING, a CPU-port command whose effect does not depend on the frame's kind has that effect. -/
theorem onCpu_of_isRunning {s : State} (hmode : s.runMode.isRunning = true) (effect : State → State) :
    onCpu (fun _ => effect) s = effect s := by
  cases hm : s.runMode with
  | running m => exact onCpu_running hm _
  | idle | faulted => simp [hm, RunMode.isRunning] at hmode

/-! ### Words with a non-zero unused field -/

/-- A row's opcode on the row's port, with a non-zero field that the row's format does not use (R54). -/
theorem unusedIllegal_of_unused_ne_zero (m : Mnemonic) {d : Byte} {a : BitVec 16} {n : BitVec 32}
    (hfields : (m.format.usesD = false ∧ d ≠ 0#8) ∨ (m.format.usesA = false ∧ a ≠ 0#16) ∨
      (m.format.usesN = false ∧ n ≠ 0#32)) : UnusedIllegal m.port m.opcode d a n := by
  have hcheck : unusedFieldsZero m.format (packWord m.opcode d a n) = false := by
    simpa only [unusedFieldsZero_eq_false_iff, Laws.dField_packWord, Laws.aField_packWord, Laws.nField_packWord]
      using hfields
  exact decode_eq_unusedFieldNonZero (Laws.opField_packWord _ _ _ _) rfl hcheck

/-! ### What a read and a write answer -/

theorem readByte_eq_answered (p : Port) (addr : Addr) (s : State) :
    readByte p addr s = answered s p .value ((s.mem.read addr).setWidth 32) := rfl

theorem writeByte_eq_answered (p : Port) (addr : Addr) (data : Byte) (s : State) :
    writeByte p addr data s = answered { s with mem := s.mem.write addr data } p .done 0#32 := rfl

theorem exec_memRd_of_idle {s : State} (hmode : s.runMode = .idle) (addr : Addr) :
    exec (.memRd addr) s = .next (answered s .host .value ((s.mem.read addr).setWidth 32)) := by
  rw [exec_eq_next, after, onHost_idle hmode, readByte_eq_answered]

theorem exec_memWr_of_idle {s : State} (hmode : s.runMode = .idle) (addr : Addr) (data : Byte) :
    exec (.memWr addr data) s = .next (answered { s with mem := s.mem.write addr data } .host .done 0#32) := by
  rw [exec_eq_next, after, onHost_idle hmode, writeByte_eq_answered]

theorem exec_cpuRd_of_isRunning {s : State} (hmode : s.runMode.isRunning = true) (addr : Addr) :
    exec (.cpuRd addr) s = .next (answered s .cpu .value ((s.mem.read addr).setWidth 32)) := by
  rw [exec_eq_next, after, onCpu_of_isRunning hmode, readByte_eq_answered]

theorem exec_cpuWr_of_isRunning {s : State} (hmode : s.runMode.isRunning = true) (addr : Addr) (data : Byte) :
    exec (.cpuWr addr data) s = .next (answered { s with mem := s.mem.write addr data } .cpu .done 0#32) := by
  rw [exec_eq_next, after, onCpu_of_isRunning hmode, writeByte_eq_answered]

/-! ### Which steps write the memory -/

/-- A command keeps the memory, or it is the MEM_WR or CPU_WR, in the mode that accepts it, that writes one byte. -/
theorem effect_mem_eq_or_write {i : Instr} {s t : State} (h : Effect i s t) :
    t.mem = s.mem ∨ ∃ addr data, t.mem = s.mem.write addr data ∧
      ((s.runMode = .idle ∧ i = .memWr addr data) ∨ (s.runMode.isRunning = true ∧ i = .cpuWr addr data)) := by
  cases h with
  | memWr mode => exact .inr ⟨_, _, rfl, .inl ⟨mode, rfl⟩⟩
  | cpuWr mode => exact .inr ⟨_, _, rfl, .inr ⟨by rw [mode]; rfl, rfl⟩⟩
  | cpuWhileIdle | tickAdvOverflow | fbRdRange | fbRdInvalid | cpuAdvOverflow | stepEndZero =>
    exact .inl (raise_mem _ _ _)
  | runFrameEnds | execFrameEnds | stepEndFrame => exact .inl (endFrame_mem _ _ _)
  | held | refused | status | memRd | tickAdv | tickRd | runFrameStarts | execFrameStarts | render | fbRd | cpuRd
  | cpuAdv | stepEndNext => exact .inl rfl

theorem rejectWord_mem (p : Port) (s : State) : (rejectWord p s).mem = s.mem := by
  rcases rejectWord_cases p s with ⟨-, hreject⟩ | ⟨-, hreject⟩ <;> rw [hreject]
  · exact refuse_mem _ _
  · exact raise_mem _ _ _

/-- A step keeps the memory, or it runs the MEM_WR or CPU_WR, in the mode that accepts it, that writes one byte. -/
theorem step_mem_eq_or_write {s t : State} (h : step s = .next t) :
    t.mem = s.mem ∨ ∃ addr data, t.mem = s.mem.write addr data ∧
      ((s.runMode = .idle ∧ Runs s (.memWr addr data)) ∨
        (s.runMode.isRunning = true ∧ Runs s (.cpuWr addr data))) := by
  rcases step_effect h with ⟨-, rfl⟩ | ⟨c, others, i, htake, hdecode, heffect⟩ | ⟨c, others, e, -, -, rfl⟩
  · exact .inl rfl
  · refine (effect_mem_eq_or_write heffect).imp_right ?_
    rintro ⟨addr, data, hmem, hwriter⟩
    refine ⟨addr, data, hmem, hwriter.imp ?_ ?_⟩ <;> rintro ⟨hmode, rfl⟩ <;>
      exact ⟨hmode, c, others, htake, hdecode⟩
  · exact .inl (rejectWord_mem _ _)

/-- A step that runs no write of an address keeps its byte. -/
theorem step_read_eq_of_not_written {s t : State} {a : Addr} (h : step s = .next t)
    (hnone : ∀ data, ¬ Runs s (.memWr a data) ∧ ¬ Runs s (.cpuWr a data)) : t.mem.read a = s.mem.read a := by
  rcases step_mem_eq_or_write h with hmem | ⟨addr, data, hmem, hwriter⟩
  · rw [hmem]
  · have hother : a ≠ addr := by
      rintro rfl
      exact hwriter.elim (fun hw => (hnone data).1 hw.2) (fun hw => (hnone data).2 hw.2)
    rw [hmem, Memory.read_write, if_neg hother]

/-- A cell not written since reset reads as INIT_MEMORY (R41, R63). -/
theorem read_eq_initMemory_of_unwritten {a : Addr} {s : State} (h : Unwritten a s) :
    s.mem.read a = Config.initMemory a := by
  induction h with
  | reset => exact Memory.read_nil a
  | arrive words _ ih => exact ih
  | step _ hstep hnone ih => rw [step_read_eq_of_not_written hstep hnone, ih]

/-! ### The statements -/

/-- Settles O12: the never-written clause is an induction over the run, in which no step writes the cell. -/
theorem memRd : Obligations.MemRd := by
  intro addr
  refine ⟨rfl, fun d n hne => ?_, fun s hmode => exec_memRd_of_idle hmode addr, fun s hunwritten => ?_,
    hostGate_of_port rfl nofun⟩
  · exact unusedIllegal_of_unused_ne_zero .memRd (hne.imp (⟨rfl, ·⟩) fun hn => .inr ⟨rfl, hn⟩)
  · have hread := read_eq_initMemory_of_unwritten hunwritten
    exact ⟨hread, fun hmode => hread ▸ exec_memRd_of_idle hmode addr⟩

/-- Settles O13: the memory after it is the written one, which `Memory.read_write` reads byte by byte. -/
theorem memWr : Obligations.MemWr := by
  intro addr data
  refine ⟨rfl, fun n hn => ?_, fun s hmode => ?_, hostGate_of_port rfl nofun⟩
  · exact unusedIllegal_of_unused_ne_zero .memWr (.inr (.inr ⟨rfl, hn⟩))
  · exact ⟨s.mem.write addr data, exec_memWr_of_idle hmode addr data, Memory.read_write s.mem addr data⟩

/-- Settles O14: as MEM_RD, through the gate of the CPU port. -/
theorem cpuRd : Obligations.CpuRd := by
  intro addr
  refine ⟨rfl, fun d n hne => ?_, fun s hmode => exec_cpuRd_of_isRunning hmode addr, cpuGate_of_port rfl⟩
  exact unusedIllegal_of_unused_ne_zero .cpuRd (hne.imp (⟨rfl, ·⟩) fun hn => .inr ⟨rfl, hn⟩)

/-- Settles O15: as MEM_WR, through the gate of the CPU port. -/
theorem cpuWr : Obligations.CpuWr := by
  intro addr data
  refine ⟨rfl, fun n hn => ?_, fun s hmode => ?_, cpuGate_of_port rfl⟩
  · exact unusedIllegal_of_unused_ne_zero .cpuWr (.inr (.inr ⟨rfl, hn⟩))
  · exact ⟨s.mem.write addr data, exec_cpuWr_of_isRunning hmode addr data, Memory.read_write s.mem addr data⟩

end Sys2Proof.Proofs
end

section
/-! The render procedure against the closed form `frame(Mem)` (42_frame_renderer.md R85 to R91): the line-address step and
the closed form of its sequence, case by case, and the frame buffer that a render leaves. -/

namespace Sys2Proof.Proofs
open Sys2Proof.Machine Sys2Proof.Safety

/-! ### The line-address step -/

/-- The test of the line-address step: whether the pixel row, bits 10:8, goes to 0 (R85). -/
theorem pixelRow_add_eq_zero_iff (a : Addr) : (a + 0x100#16).extractLsb' 8 3 = 0#3 ↔ a.toNat / 0x100 % 8 = 7 := by
  simp only [← BitVec.toNat_inj, BitVec.extractLsb'_toNat, BitVec.toNat_add, BitVec.toNat_ofNat,
    Nat.shiftRight_eq_div_pow]
  omega

/-- Inside a character row the step goes one pixel row down (R85). -/
theorem lineStep_of_pixelRow_ne {a : Addr} (h : a.toNat / 0x100 % 8 ≠ 7) : lineStep a = a + 0x100#16 := by
  simp only [lineStep, pixelRow_add_eq_zero_iff, if_neg h]

/-- After the last pixel row the step goes to the next character row, or into the next third where its low byte
carries (R85). -/
theorem lineStep_of_pixelRow_eq {a : Addr} (h : a.toNat / 0x100 % 8 = 7) :
    lineStep a = if a.toNat % 0x100 < 0xE0 then a - 0x6E0#16 else a + 0x20#16 := by
  have hcarry : ((a + 0x100#16 + 0x20#16).extractLsb' 0 8).toNat < 0x20 ↔ ¬ a.toNat % 0x100 < 0xE0 := by
    simp only [BitVec.extractLsb'_toNat, BitVec.toNat_add, BitVec.toNat_ofNat, Nat.shiftRight_zero]
    omega
  simp only [lineStep, pixelRow_add_eq_zero_iff, if_pos h, hcarry, ite_not]
  split <;> bv_omega

/-! ### The closed form of the line-address sequence -/

theorem lineAddrClosed_lt (i : Nat) : lineAddrClosed i < 0x6000 := by
  rw [lineAddrClosed]
  omega

/-- Bits 10:8 of the closed form are the pixel row. -/
theorem lineAddrClosed_pixelRow (i : Nat) : lineAddrClosed i / 0x100 % 8 = i % 8 := by
  have hpixel : i % 8 < 8 := Nat.mod_lt _ (by decide)
  have hchar : i / 8 % 8 < 8 := Nat.mod_lt _ (by decide)
  rw [lineAddrClosed]
  generalize i % 8 = pixel, i / 8 % 8 = char, i / 64 % 4 = third at *
  omega

/-- The low byte of the closed form is the character row, in steps of 32 bytes. -/
theorem lineAddrClosed_lowByte (i : Nat) : lineAddrClosed i % 0x100 = i / 8 % 8 * 0x20 := by
  rw [lineAddrClosed]
  omega

theorem lineAddrClosed_succ_of_pixelRow_ne {i : Nat} (h : i % 8 ≠ 7) :
    lineAddrClosed (i + 1) = lineAddrClosed i + 0x100 := by
  have hchar : (i + 1) / 8 = i / 8 := by omega
  have hthird : (i + 1) / 64 = i / 64 := by omega
  rw [lineAddrClosed, lineAddrClosed, hchar, hthird]
  omega

theorem lineAddrClosed_succ_of_charRow_ne {i : Nat} (h : i % 8 = 7) (hne : i / 8 % 8 ≠ 7) :
    lineAddrClosed (i + 1) + 0x6E0 = lineAddrClosed i := by
  have hchar : (i + 1) / 8 = i / 8 + 1 := by omega
  have hthird : (i + 1) / 64 = i / 64 := by omega
  rw [lineAddrClosed, lineAddrClosed, hchar, hthird]
  omega

theorem lineAddrClosed_succ_of_third {i : Nat} (hi : i < 191) (h : i % 8 = 7) (heq : i / 8 % 8 = 7) :
    lineAddrClosed (i + 1) = lineAddrClosed i + 0x20 := by
  have hchar : (i + 1) / 8 = i / 8 + 1 := by omega
  have hthird : (i + 1) / 64 = i / 64 + 1 := by omega
  rw [lineAddrClosed, lineAddrClosed, hchar, hthird]
  omega

/-- The line-address sequence has its closed form on all 192 lines (R86). -/
theorem lineAddr_toNat {i : Nat} (hi : i < 192) : (lineAddr i).toNat = lineAddrClosed i := by
  induction i with
  | zero => rfl
  | succ i ih =>
    have ih := ih (by omega)
    have hlt := lineAddrClosed_lt i
    rw [lineAddr]
    by_cases hrow : i % 8 = 7
    · rw [lineStep_of_pixelRow_eq (by rw [ih, lineAddrClosed_pixelRow, hrow]), ih, lineAddrClosed_lowByte]
      split
      · have hclosed := lineAddrClosed_succ_of_charRow_ne hrow (by omega)
        bv_omega
      · have hclosed := lineAddrClosed_succ_of_third (by omega) hrow (by omega)
        bv_omega
    · rw [lineStep_of_pixelRow_ne (by rwa [ih, lineAddrClosed_pixelRow])]
      have hclosed := lineAddrClosed_succ_of_pixelRow_ne hrow
      bv_omega

/-! ### The frame buffer after a render -/

/-- The address of screen byte `j` of line `i`, by the line-address sequence and by the closed form (R88). -/
theorem lineAddr_add_eq_screenAddr {i : Nat} (hi : i < 192) (j : Nat) :
    lineAddr i + BitVec.ofNat 16 j = screenAddr i j := by
  rw [screenAddr, BitVec.ofNat_add, ← lineAddr_toNat hi, BitVec.ofNat_toNat, BitVec.setWidth_eq]

/-- The render procedure leaves `frame(Mem)` (R90, R91). -/
theorem paintFrame_eq_frameOf (m : Memory) : paintFrame m = frameOf m := by
  refine Frame.ext_chunks fun r c hr hc => ?_
  simp only [paintFrame_chunk, frameOf, Vector.getElem_ofFn]
  split
  · rw [lineAddr_add_eq_screenAddr (by omega)]
  · rfl

end Sys2Proof.Proofs
end

section
/-! The commands of the synchronizer (41_cycle_sync.md R67 to R73): the state that each leaves, one lemma for each way it
ends. -/

namespace Sys2Proof.Proofs
open Sys2Proof.Machine Sys2Proof.Safety

/-- A command without operands, with a non-zero field (R54). -/
theorem unusedIllegal_of_format_f0 {m : Mnemonic} (hformat : m.format = .f0) {d : Byte} {a : BitVec 16}
    {n : BitVec 32} (hfields : d ≠ 0#8 ∨ a ≠ 0#16 ∨ n ≠ 0#32) : UnusedIllegal m.port m.opcode d a n := by
  refine unusedIllegal_of_unused_ne_zero m ?_
  rw [hformat]
  exact hfields.imp (⟨rfl, ·⟩) (Or.imp (⟨rfl, ·⟩) (⟨rfl, ·⟩))

/-- A command whose one operand is N, with a non-zero D or A (R54). -/
theorem unusedIllegal_of_format_fn {m : Mnemonic} (hformat : m.format = .fn) {d : Byte} {a : BitVec 16}
    (hfields : d ≠ 0#8 ∨ a ≠ 0#16) (n : BitVec 32) : UnusedIllegal m.port m.opcode d a n := by
  refine unusedIllegal_of_unused_ne_zero m ?_
  rw [hformat]
  exact hfields.imp (⟨rfl, ·⟩) fun ha => .inl ⟨rfl, ha⟩

/-! ### Fault entry, and the operations as the states they leave -/

theorem raise_cpu_eq_stoppedFrame {s : State} {m : Bool} (hmode : s.runMode = .running m) (f : BlockFault) :
    raise .cpu f s = stoppedFrame s f.code := raise_cpu_running hmode f

theorem requestStep_eq (s : State) :
    requestStep s = { s with stepAcc := 0#32, sent := s.sent ++ [stepRequest] } := rfl

/-- A mode in which a frame is in progress is RUNNING, with or without a render at the end. -/
theorem exists_running_of_isRunning {mode : RunMode} (h : mode.isRunning = true) : ∃ m, mode = .running m := by
  cases mode with
  | running m => exact ⟨m, rfl⟩
  | idle | faulted => cases h

/-- R71: everything that end_frame leaves. -/
theorem endFrame_eq (F : Tick) (m : Bool) (s : State) :
    endFrame F m s =
      { s with
        ticks := s.ticks - F, runMode := .idle
        fb := if m then frameOf s.mem else s.fb
        fbValid := m || s.fbValid
        sent := s.sent ++ [said .host .done 0#32] } := by
  rw [← paintFrame_eq_frameOf]
  cases m <;> rfl

/-! ### What each command does in the mode that accepts it -/

theorem after_tickAdv_of_fits {s : State} {x : Tick} (hmode : s.runMode = .idle)
    (hfits : s.ticks.toNat + x.toNat < 2 ^ 32) :
    after (.tickAdv x) s = answered { s with ticks := s.ticks + x } .host .done 0#32 := by
  obtain ⟨-, he⟩ := (hostAdvance_cases x s).resolve_left fun h => by omega
  rw [after, onHost_idle hmode, he]
  rfl

theorem after_tickAdv_of_overflow {s : State} {x : Tick} (hmode : s.runMode = .idle)
    (hover : 2 ^ 32 ≤ s.ticks.toNat + x.toNat) : after (.tickAdv x) s = stopped s .host 0x03#8 := by
  obtain ⟨-, he⟩ := (hostAdvance_cases x s).resolve_right fun h => by omega
  rw [after, onHost_idle hmode, he]
  rfl

theorem exec_tickRd_of_idle {s : State} (hmode : s.runMode = .idle) :
    exec .tickRd s = .next (answered s .host .value s.ticks) := by
  rw [exec_eq_next, after, onHost_idle hmode]
  rfl

theorem after_cpuAdv_of_fits {s : State} {x : Tick} (hmode : s.runMode.isRunning = true)
    (hfits : s.ticks.toNat + x.toNat < 2 ^ 32) :
    after (.cpuAdv x) s = answered { s with ticks := s.ticks + x, stepAcc := s.stepAcc + x } .cpu .done 0#32 := by
  obtain ⟨-, he⟩ := (cpuAdvance_cases x s).resolve_left fun h => by omega
  rw [after, onCpu_of_isRunning hmode, he]
  rfl

theorem after_cpuAdv_of_overflow {s : State} {x : Tick} (hmode : s.runMode.isRunning = true)
    (hover : 2 ^ 32 ≤ s.ticks.toNat + x.toNat) : after (.cpuAdv x) s = stoppedFrame s 0x03#8 := by
  obtain ⟨-, he⟩ := (cpuAdvance_cases x s).resolve_right fun h => by omega
  obtain ⟨m, hm⟩ := exists_running_of_isRunning hmode
  rw [after, onCpu_of_isRunning hmode, he, raise_cpu_eq_stoppedFrame hm]
  rfl

/-- The invariant keeps STEP_ACC at or below TICKS, so that it wraps only where TICKS would (R20). -/
theorem stepAcc_add_toNat {s : State} {x : Tick} (hinv : Inv s) (hmode : s.runMode.isRunning = true)
    (hfits : s.ticks.toNat + x.toNat < 2 ^ 32) : (s.stepAcc + x).toNat = s.stepAcc.toNat + x.toNat := by
  obtain ⟨hle, -⟩ := hinv.stepStartedBelow hmode
  exact BitVec.toNat_add_of_lt (by omega)

theorem after_frameCommand_of_idle {s : State} (hmode : s.runMode = .idle) (m : Bool) :
    after (frameCommand m) s = startFrame Config.frameTicks m s := by
  cases m <;> exact onHost_idle hmode _ _

theorem after_frameCommand_of_reached {s : State} (hmode : s.runMode = .idle)
    (hreached : Config.frameTicks.toNat ≤ s.ticks.toNat) (m : Bool) :
    after (frameCommand m) s = endFrame Config.frameTicks m s := by
  obtain ⟨-, he⟩ := (startFrame_cases Config.frameTicks m s).resolve_right fun h => by omega
  rw [after_frameCommand_of_idle hmode, he]

theorem after_frameCommand_of_below {s : State} (hmode : s.runMode = .idle)
    (hbelow : s.ticks.toNat < Config.frameTicks.toNat) (m : Bool) :
    after (frameCommand m) s =
      { s with runMode := .running m, stepAcc := 0#32, sent := s.sent ++ [stepRequest] } := by
  obtain ⟨-, he⟩ := (startFrame_cases Config.frameTicks m s).resolve_left fun h => by omega
  rw [after_frameCommand_of_idle hmode, he, requestStep_eq]

theorem after_cpuStepEnd_of_zero {s : State} (hmode : s.runMode.isRunning = true) (hzero : s.stepAcc = 0#32) :
    after .cpuStepEnd s = stoppedFrame s 0x02#8 := by
  obtain ⟨m, hm⟩ := exists_running_of_isRunning hmode
  obtain ⟨-, he⟩ := (endStep_cases Config.frameTicks m s).resolve_right fun h => h.elim (·.1 hzero) (·.1 hzero)
  rw [after, onCpu_running hm, he, raise_cpu_eq_stoppedFrame hm]
  rfl

theorem after_cpuStepEnd_of_below {s : State} {m : Bool} (hmode : s.runMode = .running m)
    (hprogress : s.stepAcc ≠ 0#32) (hbelow : s.ticks.toNat < Config.frameTicks.toNat) :
    after .cpuStepEnd s =
      { s with stepAcc := 0#32, sent := s.sent ++ [said .cpu .done 0#32, stepRequest] } := by
  rw [after, onCpu_running hmode]
  rcases endStep_cases Config.frameTicks m s with ⟨hzero, -⟩ | ⟨-, hreached, -⟩ | ⟨-, -, he⟩
  · exact absurd hzero hprogress
  · omega
  · rw [he, requestStep_eq, respond_sent, List.append_assoc]
    rfl

/-- A step that reaches the boundary answers the CPU collaborator, then ends the frame (R73). -/
theorem after_cpuStepEnd_of_reached {s : State} {m : Bool} (hmode : s.runMode = .running m)
    (hprogress : s.stepAcc ≠ 0#32) (hreached : Config.frameTicks.toNat ≤ s.ticks.toNat) :
    after .cpuStepEnd s = endFrame Config.frameTicks m (answered s .cpu .done 0#32) := by
  rw [after, onCpu_running hmode]
  rcases endStep_cases Config.frameTicks m s with ⟨hzero, -⟩ | ⟨-, -, he⟩ | ⟨-, hbelow, -⟩
  · exact absurd hzero hprogress
  · exact he
  · omega

end Sys2Proof.Proofs
end

section
/-! Frames as sequences of commands (41_cycle_sync.md R74): what holds inside a frame, command by command and step by step,
and just after it. -/

namespace Sys2Proof.Proofs
open Sys2Proof.Machine Sys2Proof.Safety

/-! ### Sequences of commands -/

/-- The state after commands run one after the other. -/
def afterAll (commands : List Instr) (s : State) : State := commands.foldl (fun t i => after i t) s

theorem runAll_eq_next (commands : List Instr) (s : State) : runAll commands s = .next (afterAll commands s) := by
  induction commands generalizing s with
  | nil => rfl
  | cons i rest ih =>
    rw [runAll, exec_eq_next]
    exact ih (after i s)

@[simp] theorem afterAll_nil (s : State) : afterAll [] s = s := rfl

@[simp] theorem afterAll_cons (i : Instr) (rest : List Instr) (s : State) :
    afterAll (i :: rest) s = afterAll rest (after i s) := rfl

@[simp] theorem afterAll_append (first rest : List Instr) (s : State) :
    afterAll (first ++ rest) s = afterAll rest (afterAll first s) := List.foldl_append

@[simp] theorem stepTotal_cons (i : Instr) (rest : List Instr) :
    stepTotal (i :: rest) = reported i + stepTotal rest := List.sum_cons

@[simp] theorem stepsTotal_cons (body : List Instr) (rest : List (List Instr)) :
    stepsTotal (body :: rest) = stepTotal body + stepsTotal rest := List.sum_cons

@[simp] theorem stepCommands_nil : stepCommands [] = [] := rfl

@[simp] theorem stepCommands_cons (body : List Instr) (rest : List (List Instr)) :
    stepCommands (body :: rest) = body ++ .cpuStepEnd :: stepCommands rest := by
  simp [stepCommands]

@[simp] theorem stepCommands_append (first rest : List (List Instr)) :
    stepCommands (first ++ rest) = stepCommands first ++ stepCommands rest := by
  simp [stepCommands]

/-! ### Inside a frame -/

/-- `t` is inside a frame that `s` started, with TICKS and STEP_ACC at these values and FB as `s` had it. -/
structure InFrame (s : State) (renderAfter : Bool) (ticks acc : Nat) (t : State) : Prop where
  mode : t.runMode = .running renderAfter
  ticks : t.ticks.toNat = ticks
  acc : t.stepAcc.toNat = acc
  fb : t.fb = s.fb
  fbValid : t.fbValid = s.fbValid

/-- A frame that starts below the boundary sends its first step request (R72, R93). -/
theorem inFrame_after_frameCommand {s : State} (hmode : s.runMode = .idle)
    (hbelow : s.ticks.toNat < Config.frameTicks.toNat) (m : Bool) :
    InFrame s m s.ticks.toNat 0 (after (frameCommand m) s) := by
  rw [after_frameCommand_of_below hmode hbelow]
  exact ⟨rfl, rfl, rfl, rfl, rfl⟩

/-- `t` is just after a frame that `s` started, with TICKS at this value and FB rendered if asked. -/
structure FrameEnded (s : State) (renderAfter : Bool) (ticks : Nat) (t : State) : Prop where
  mode : t.runMode = .idle
  ticks : t.ticks.toNat = ticks
  fb : t.fb = if renderAfter then frameOf t.mem else s.fb
  fbValid : t.fbValid = (renderAfter || s.fbValid)

variable {s t : State} {m : Bool} {ticks acc : Nat}

/-- A command inside a step adds what it reports, to TICKS and to STEP_ACC (R65, R66, R70). -/
theorem InFrame.after_stepCommand {i : Instr} (h : InFrame s m ticks acc t) (hi : isStepCommand i = true)
    (hacc : acc ≤ ticks) (hfits : ticks + reported i < 2 ^ 32) :
    InFrame s m (ticks + reported i) (acc + reported i) (after i t) := by
  obtain ⟨hmode, rfl, rfl, hfb, hvalid⟩ := h
  cases i with
  | cpuRd addr | cpuWr addr data =>
    rw [after, onCpu_running hmode]
    exact ⟨hmode, rfl, rfl, hfb, hvalid⟩
  | cpuAdv x =>
    have hrunning : t.runMode.isRunning = true := by rw [hmode]; rfl
    have haccFits : t.stepAcc.toNat + x.toNat < 2 ^ 32 := (Nat.add_le_add_right hacc _).trans_lt hfits
    rw [after_cpuAdv_of_fits hrunning hfits]
    exact ⟨hmode, BitVec.toNat_add_of_lt hfits, BitVec.toNat_add_of_lt haccFits, hfb, hvalid⟩
  | memRd | memWr | tickAdv | tickRd | runFrame | render | execFrame | fbRd | statusRd | cpuStepEnd => cases hi

/-- The commands of a step add its total, to TICKS and to STEP_ACC (R20). -/
theorem InFrame.after_body {body : List Instr} (h : InFrame s m ticks acc t) (hbody : body.all isStepCommand = true)
    (hacc : acc ≤ ticks) (hfits : ticks + stepTotal body < 2 ^ 32) :
    InFrame s m (ticks + stepTotal body) (acc + stepTotal body) (afterAll body t) := by
  induction body generalizing ticks acc t with
  | nil => exact h
  | cons i rest ih =>
    rw [List.all_cons, Bool.and_eq_true] at hbody
    rw [stepTotal_cons, ← Nat.add_assoc] at hfits
    have hnext := h.after_stepCommand hbody.1 hacc (by omega)
    rw [stepTotal_cons, ← Nat.add_assoc, ← Nat.add_assoc]
    exact ih hnext hbody.2 (by omega) hfits

theorem InFrame.stepAcc_ne_zero (h : InFrame s m ticks acc t) (hacc : 0 < acc) : t.stepAcc ≠ 0#32 := by
  intro hzero
  have hnat := h.acc
  rw [hzero] at hnat
  exact hacc.ne hnat

/-- A whole step that stays below the boundary leaves the frame running, with the next step requested (R73). -/
theorem InFrame.after_step {body : List Instr} (h : InFrame s m ticks 0 t) (hbody : StepOk body)
    (hbelow : ticks + stepTotal body < Config.frameTicks.toNat) :
    InFrame s m (ticks + stepTotal body) 0 (after .cpuStepEnd (afterAll body t)) := by
  obtain ⟨hkinds, hpositive⟩ := hbody
  have hend := h.after_body hkinds (Nat.zero_le _) (hbelow.trans Config.frameTicks.isLt)
  rw [after_cpuStepEnd_of_below hend.mode (hend.stepAcc_ne_zero (by omega)) (by rwa [hend.ticks])]
  exact ⟨hend.mode, hend.ticks, rfl, hend.fb, hend.fbValid⟩

/-- Whole steps whose sum stays below the boundary leave the frame running (R74). -/
theorem InFrame.after_steps {steps : List (List Instr)} (h : InFrame s m ticks 0 t)
    (hsteps : ∀ body ∈ steps, StepOk body) (hbelow : ticks + stepsTotal steps < Config.frameTicks.toNat) :
    InFrame s m (ticks + stepsTotal steps) 0 (afterAll (stepCommands steps) t) := by
  induction steps generalizing ticks t with
  | nil => exact h
  | cons body rest ih =>
    rw [List.forall_mem_cons] at hsteps
    rw [stepsTotal_cons, ← Nat.add_assoc] at hbelow ⊢
    rw [stepCommands_cons, afterAll_append, afterAll_cons]
    exact ih (h.after_step hsteps.1 (by omega)) hsteps.2 hbelow

/-- The step that reaches the boundary ends the frame with one subtraction, and the render of EXEC_FRAME shows the memory
as the step left it (R71, R73). -/
theorem InFrame.after_lastStep {last : List Instr} (h : InFrame s m ticks 0 t) (hlast : StepOk last)
    (hreached : Config.frameTicks.toNat ≤ ticks + stepTotal last) (hfits : ticks + stepTotal last < 2 ^ 32) :
    FrameEnded s m (ticks + stepTotal last - Config.frameTicks.toNat) (after .cpuStepEnd (afterAll last t)) := by
  obtain ⟨hkinds, hpositive⟩ := hlast
  have hend := h.after_body hkinds (Nat.zero_le _) hfits
  have hboundary : Config.frameTicks.toNat ≤ (afterAll last t).ticks.toNat := by rwa [hend.ticks]
  rw [after_cpuStepEnd_of_reached hend.mode (hend.stepAcc_ne_zero (by omega)) hboundary, endFrame_eq, ← hend.ticks]
  exact ⟨rfl, ticks_sub_toNat hboundary, congrArg (if m then _ else ·) hend.fb, congrArg (m || ·) hend.fbValid⟩

end Sys2Proof.Proofs
end

section
/-! The statements of the synchronizer (41_cycle_sync.md R68 to R75). -/

namespace Sys2Proof.Proofs
open Sys2Proof.Machine Sys2Proof.Safety

/-- Settles O18: the two ends of `add_ticks` (R67), for the host. -/
theorem tickAdv : Obligations.TickAdv := by
  intro amount
  refine ⟨rfl, fun d a hne => ?_, fun s hmode hfits => ?_, fun s hmode hover => ?_, hostGate_of_port rfl nofun⟩
  · exact unusedIllegal_of_format_fn (m := .tickAdv) rfl hne amount
  · exact ⟨s.ticks + amount, BitVec.toNat_add_of_lt hfits, by rw [exec_eq_next, after_tickAdv_of_fits hmode hfits]⟩
  · rw [exec_eq_next, after_tickAdv_of_overflow hmode hover]

/-- Settles O19: the answer is TICKS as it is, which reset leaves 0. -/
theorem tickRd : Obligations.TickRd := by
  refine ⟨rfl, fun d a n hne => ?_, fun s => exec_tickRd_of_idle, exec_tickRd_of_idle rfl, hostGate_of_port rfl nofun⟩
  exact unusedIllegal_of_format_f0 (m := .tickRd) rfl hne

/-- Settles O20: as TICK_ADV, with STEP_ACC kept below TICKS by the invariant. -/
theorem cpuAdv : Obligations.CpuAdv := by
  intro amount
  refine ⟨rfl, fun d a hne => ?_, fun s hmode hfits => ?_, fun s hmode hover => ?_, cpuGate_of_port rfl⟩
  · exact unusedIllegal_of_format_fn (m := .cpuAdv) rfl hne amount
  · exact ⟨s.ticks + amount, BitVec.toNat_add_of_lt hfits,
      by rw [exec_eq_next, after_cpuAdv_of_fits hmode hfits], fun hinv => stepAcc_add_toNat hinv hmode hfits⟩
  · rw [exec_eq_next, after_cpuAdv_of_overflow hmode hover]

/-- Settles O22: both sides of the boundary test before the first step; without a render, `end_frame` keeps FB. -/
theorem runFrame : Obligations.RunFrame := by
  refine ⟨rfl, fun d a n hne => ?_, fun s hmode hreached => ?_, fun s hmode hbelow => ?_, hostGate_of_port rfl nofun⟩
  · exact unusedIllegal_of_format_f0 (m := .runFrame) rfl hne
  · refine ⟨s.ticks - Config.frameTicks, ticks_sub_toNat hreached, ?_⟩
    rw [exec_eq_next]
    refine congrArg Host.Outcome.next ((after_frameCommand_of_reached hmode hreached false).trans ?_)
    rw [endFrame_without_render, ← hmode]
    rfl
  · rw [exec_eq_next]
    exact congrArg Host.Outcome.next (after_frameCommand_of_below hmode hbelow false)

/-- Settles O23: the three ends of a step, by STEP_ACC and by the boundary test after it. -/
theorem cpuStepEnd : Obligations.CpuStepEnd := by
  refine ⟨rfl, fun d a n hne => ?_, fun s hmode hzero => ?_, fun s m hmode hprogress hbelow => ?_,
    fun s m hmode hprogress hreached => ?_, cpuGate_of_port rfl⟩
  · exact unusedIllegal_of_format_f0 (m := .cpuStepEnd) rfl hne
  · rw [exec_eq_next, after_cpuStepEnd_of_zero hmode hzero]
  · rw [exec_eq_next, after_cpuStepEnd_of_below hmode hprogress hbelow]
  · refine ⟨s.ticks - Config.frameTicks, ticks_sub_toNat hreached, ?_⟩
    rw [exec_eq_next, after_cpuStepEnd_of_reached hmode hprogress hreached, endFrame_eq]
    simp [answered]

/-- Settles O24: the steps before the last keep the frame running, by induction over them, and the last one ends it. -/
theorem carryOver : Obligations.CarryOver := by
  intro s renderAfter steps hmode hstart hsteps
  have hframe := inFrame_after_frameCommand hmode hstart renderAfter
  refine ⟨fun hbelow => ?_, fun last hlast hbelow hreached hfits => ?_⟩
  · have hrun := hframe.after_steps hsteps hbelow
    exact ⟨_, runAll_eq_next _ _, hrun.mode, hrun.ticks, BitVec.eq_of_toNat_eq hrun.acc⟩
  · have hended := (hframe.after_steps hsteps hbelow).after_lastStep hlast hreached hfits
    refine ⟨_, ?_, hended.mode, hended.ticks, ?_, ?_⟩
    · simp [runAll_eq_next]
    · rintro rfl
      exact ⟨hended.fbValid, hended.fb⟩
    · rintro rfl
      exact ⟨hended.fbValid, hended.fb⟩

/-- Settles O25: before a step, TICKS was below FRAME_TICKS (the invariant), so the surplus is less than the step. -/
theorem postBoundaryBound : Obligations.PostBoundaryBound := by
  intro s t hinv hmode hexec hidle
  obtain ⟨hle, hstart⟩ := hinv.stepStartedBelow hmode
  obtain ⟨m, hm⟩ := exists_running_of_isRunning hmode
  rw [exec_next_iff, after, onCpu_running hm] at hexec
  subst hexec
  rcases endStep_cases Config.frameTicks m s with ⟨-, he⟩ | ⟨-, hreached, he⟩ | ⟨-, -, he⟩ <;> rw [he] at hidle ⊢
  · simp at hidle
  · rw [endFrame_ticks, respond_ticks, ticks_sub_toNat hreached]
    omega
  · simp [hm] at hidle

/-- Settles O21: the one subtraction does not wrap at or above the boundary, and a render writes `frame(Mem)` (R90). -/
theorem endFrame : Obligations.EndFrame :=
  fun F m s hreached => ⟨s.ticks - F, ticks_sub_toNat hreached, endFrame_eq F m s⟩

end Sys2Proof.Proofs
end

section
/-! Pixels and chunks (42_frame_renderer.md R81, R83, R84): a chunk as its eight nibbles, each the pixel of one bit. -/

namespace Sys2Proof.Proofs
open Sys2Proof.Machine Sys2Proof.Safety

/-- The colour table as R84 uses it: white with the spread bit masked out. -/
theorem nib_eq_white_and_not (bit : Bool) : nib bit = pixelWhite &&& ~~~(if bit then 0xF#4 else 0x0#4) := by
  cases bit <;> rfl

theorem nib_injective : ∀ {bit bit' : Bool}, nib bit = nib bit' → bit = bit' := by
  decide

theorem nib_brightness (bit : Bool) : (nib bit).getLsbD 3 = false := by
  cases bit <;> rfl

/-- Nibble `k` of a chunk, counted from bit 0, is the pixel of bit `k` of its byte (R83). -/
theorem chunk_nibble (b : Byte) {k : Nat} (hk : k < 8) : (chunk b).extractLsb' (4 * k) 4 = nib (b.getLsbD k) := by
  interval_cases k <;>
    simp only [chunk, BitVec.extractLsb'_append_eq_of_le, BitVec.extractLsb'_append_eq_right, BitVec.extractLsb'_eq_self,
      Nat.reduceMul, Nat.reduceSub, Nat.reduceLeDiff]

theorem chunk_brightness (b : Byte) {k : Nat} (hk : k < 8) : (chunk b).getLsbD (4 * k + 3) = false := by
  calc (chunk b).getLsbD (4 * k + 3)
    _ = ((chunk b).extractLsb' (4 * k) 4).getLsbD 3 := by rw [BitVec.getLsbD_extractLsb']; rfl
    _ = false := by rw [chunk_nibble b hk, nib_brightness]

theorem chunk_injective {b b' : Byte} (h : chunk b = chunk b') : b = b' := by
  refine BitVec.eq_of_getLsbD_eq fun k hk => nib_injective ?_
  rw [← chunk_nibble b hk, h, chunk_nibble b' hk]

/-- R84: masking acts on each nibble, where it is the colour table. -/
theorem chunk_eq_white_and_not_spread (b : Byte) : chunk b = whiteChunk &&& ~~~ spread b := by
  simp only [chunk, nib_eq_white_and_not, whiteChunk, fullChunk, spread]
  iterate 7 rw [BitVec.not_append, BitVec.and_append]

/-- WHITE_CHUNK is the chunk of a byte with no ink. -/
theorem whiteChunk_eq_chunk_zero : whiteChunk = chunk 0#8 := by
  decide

/-- Settles O30: nibble `7 - k` is that of pixel `k`. -/
theorem serializer : Obligations.Serializer := by
  intro b k hk
  rw [show 28 - 4 * k = 4 * (7 - k) by omega]
  exact chunk_nibble b (by omega)

/-- Settles O31: the closed form by masking nibble by nibble, injectivity from the nibbles of equal chunks. -/
theorem serializerClosedForm : Obligations.SerializerClosedForm :=
  ⟨chunk_eq_white_and_not_spread, by decide, by decide, by decide, fun _ _ => chunk_injective⟩

end Sys2Proof.Proofs
end

section
/-! The line addresses and the screen (42_frame_renderer.md R86 to R88): what each line-address step adds, and the screen
addresses with their inverse. -/

namespace Sys2Proof.Proofs
open Sys2Proof.Machine Sys2Proof.Safety

/-! ### The wrap points -/

theorem lineAddr_eq_ofNat {i : Nat} (hi : i < 192) : lineAddr i = BitVec.ofNat 16 (lineAddrClosed i) := by
  rw [← lineAddr_toNat hi, BitVec.ofNat_toNat, BitVec.setWidth_eq]

theorem lineAddr_pixelRow {i : Nat} (hi : i < 192) : (lineAddr i).toNat / 0x100 % 8 = i % 8 := by
  rw [lineAddr_toNat hi, lineAddrClosed_pixelRow]

theorem lineAddr_succ_of_pixelRow_ne {i : Nat} (hi : i < 192) (hrow : i % 8 ≠ 7) :
    lineAddr (i + 1) = lineAddr i + 0x100#16 := by
  rw [lineAddr, lineStep_of_pixelRow_ne (by rwa [lineAddr_pixelRow hi])]

/-- After the last pixel row, the third decides between the two ends of the step (R87). -/
theorem lineAddr_succ_of_pixelRow_eq {i : Nat} (hi : i < 192) (hrow : i % 8 = 7) :
    lineAddr (i + 1) = if i % 64 = 63 then lineAddr i + 0x20#16 else lineAddr i - 0x6E0#16 := by
  have hcarry : (lineAddr i).toNat % 0x100 < 0xE0 ↔ ¬ i % 64 = 63 := by
    rw [lineAddr_toNat hi, lineAddrClosed_lowByte]
    omega
  rw [lineAddr, lineStep_of_pixelRow_eq (by rwa [lineAddr_pixelRow hi])]
  simp only [hcarry, ite_not]

/-- Settles O32: past the last line the step goes on from LA(191) = 0x57E0. -/
theorem lineAddressClosedForm : Obligations.LineAddressClosedForm := by
  refine ⟨rfl, fun _ => rfl, fun i hi => ⟨lineAddr_toNat hi, ?_⟩, ?_⟩
  · rw [lineAddr_toNat hi, lineAddrClosed]
    omega
  · rw [lineAddr_eq_ofNat (by decide)]
    decide

/-- Settles O33: R87 splits one step into its sums, which `lineAddr_succ_of_pixelRow_eq` gives as one. -/
theorem wrapPoints : Obligations.WrapPoints := by
  refine ⟨lineAddr_eq_ofNat (by decide), lineAddr_eq_ofNat (by decide), fun i hi =>
    ⟨lineAddr_succ_of_pixelRow_ne (by omega), fun ⟨hrow, hthird⟩ => ?_, fun hthird => ?_⟩⟩
  · rw [lineAddr_succ_of_pixelRow_eq (by omega) hrow, if_neg hthird]
    bv_omega
  · rw [lineAddr_succ_of_pixelRow_eq (by omega) (by omega), if_pos hthird]
    bv_omega

/-! ### The screen addresses and their inverse -/

theorem screenAddr_toNat (i : Nat) {j : Nat} (hj : j < 32) : (screenAddr i j).toNat = lineAddrClosed i + j := by
  have hlt := lineAddrClosed_lt i
  rw [screenAddr, BitVec.toNat_ofNat]
  omega

theorem inScreen_screenAddr {i j : Nat} (hi : i < 192) (hj : j < 32) : inScreen (screenAddr i j) := by
  rw [inScreen, screenAddr_toNat i hj, lineAddrClosed]
  omega

/-- The digits of a screen address are those of its line and its column. -/
theorem screenAddr_digits (i : Nat) {j : Nat} (hj : j < 32) :
    (screenAddr i j).toNat / 0x800 % 4 = i / 64 % 4 ∧ (screenAddr i j).toNat / 0x100 % 8 = i % 8 ∧
      (screenAddr i j).toNat / 0x20 % 8 = i / 8 % 8 ∧ (screenAddr i j).toNat % 32 = j := by
  have hpixel : i % 8 < 8 := Nat.mod_lt _ (by decide)
  have hchar : i / 8 % 8 < 8 := Nat.mod_lt _ (by decide)
  have hthird : i / 64 % 4 < 4 := Nat.mod_lt _ (by decide)
  rw [screenAddr_toNat i hj, lineAddrClosed]
  generalize i % 8 = pixel, i / 8 % 8 = char, i / 64 % 4 = third at *
  refine ⟨?_, ?_, ?_, ?_⟩ <;> omega

theorem lineOf_screenAddr {i j : Nat} (hi : i < 192) (hj : j < 32) : lineOf (screenAddr i j) = i := by
  obtain ⟨hthird, hpixel, hchar, -⟩ := screenAddr_digits i hj
  rw [lineOf, hthird, hpixel, hchar]
  omega

theorem columnOf_screenAddr (i : Nat) {j : Nat} (hj : j < 32) : columnOf (screenAddr i j) = j := by
  obtain ⟨-, -, -, hcolumn⟩ := screenAddr_digits i hj
  exact hcolumn

theorem lineOf_lt {a : Addr} (ha : inScreen a) : lineOf a < 192 := by
  obtain ⟨hlow, hhigh⟩ := ha
  rw [lineOf]
  omega

theorem columnOf_lt (a : Addr) : columnOf a < 32 := Nat.mod_lt _ (by decide)

/-- The digits of the line of an address are digits of the address. -/
theorem lineOf_digits (a : Addr) :
    lineOf a / 64 % 4 = a.toNat / 0x800 % 4 ∧ lineOf a % 8 = a.toNat / 0x100 % 8 ∧
      lineOf a / 8 % 8 = a.toNat / 0x20 % 8 := by
  have hpixel : a.toNat / 0x100 % 8 < 8 := Nat.mod_lt _ (by decide)
  have hchar : a.toNat / 0x20 % 8 < 8 := Nat.mod_lt _ (by decide)
  have hthird : a.toNat / 0x800 % 4 < 4 := Nat.mod_lt _ (by decide)
  rw [lineOf]
  generalize a.toNat / 0x100 % 8 = pixel, a.toNat / 0x20 % 8 = char, a.toNat / 0x800 % 4 = third at *
  refine ⟨?_, ?_, ?_⟩ <;> omega

theorem screenAddr_lineOf_columnOf {a : Addr} (ha : inScreen a) : screenAddr (lineOf a) (columnOf a) = a := by
  obtain ⟨hlow, hhigh⟩ := ha
  obtain ⟨hthird, hpixel, hchar⟩ := lineOf_digits a
  refine BitVec.eq_of_toNat_eq ?_
  rw [screenAddr_toNat _ (columnOf_lt a), lineAddrClosed, hthird, hpixel, hchar, columnOf]
  omega

end Sys2Proof.Proofs
end

section
/-! The frame buffer after a render (42_frame_renderer.md R81, R82, R88, R89, R91): its border and its screen chunks. -/

namespace Sys2Proof.Proofs
open Sys2Proof.Machine Sys2Proof.Safety

theorem fbChunk_renderFrame_border (s : State) {r c : Nat} (h : isBorder r c) :
    fbChunk (renderFrame s).fb r c = whiteChunk := by
  obtain ⟨hr, hc, hborder⟩ := h
  rw [fbChunk_eq _ _ _ hr hc]
  simp only [renderFrame_fb, paintFrame_chunk]
  rw [if_neg (by omega)]

theorem fbChunk_renderFrame_screen (s : State) {i j : Nat} (hi : i < 192) (hj : j < 32) :
    fbChunk (renderFrame s).fb (48 + i) (6 + j) = chunk (s.mem.read (lineAddr i + BitVec.ofNat 16 j)) := by
  rw [fbChunk_eq _ _ _ (show 48 + i < 280 by omega) (show 6 + j < 44 by omega)]
  simp only [renderFrame_fb, paintFrame_chunk]
  rw [if_pos (by omega), Nat.add_sub_cancel_left, Nat.add_sub_cancel_left]

/-- Every chunk that a render leaves is the chunk of some byte: one of the screen, or one with no ink. -/
theorem exists_fbChunk_renderFrame_eq_chunk (s : State) {r c : Nat} (hr : r < 280) (hc : c < 44) :
    ∃ b : Byte, fbChunk (renderFrame s).fb r c = chunk b := by
  by_cases hborder : r < 48 ∨ 240 ≤ r ∨ c < 6 ∨ 38 ≤ c
  · exact ⟨0#8, by rw [fbChunk_renderFrame_border s ⟨hr, hc, hborder⟩, whiteChunk_eq_chunk_zero]⟩
  · obtain ⟨i, rfl⟩ := Nat.exists_eq_add_of_le (show 48 ≤ r by omega)
    obtain ⟨j, rfl⟩ := Nat.exists_eq_add_of_le (show 6 ≤ c by omega)
    exact ⟨_, fbChunk_renderFrame_screen s (by omega) (by omega)⟩

theorem renderFrame_eq (s : State) : renderFrame s = { s with fb := frameOf s.mem, fbValid := true } := by
  rw [renderFrame, paintFrame_eq_frameOf]

/-- Settles O29: every pixel of a render is one of a serialized byte. -/
theorem colourTable : Obligations.ColourTable := by
  refine ⟨rfl, rfl, rfl, rfl, nib_brightness, fun s r c k hr hc hk => ?_⟩
  obtain ⟨b, hb⟩ := exists_fbChunk_renderFrame_eq_chunk s hr hc
  rw [hb, chunk_brightness b hk]

/-- Settles O34: the maps are inverse by the digits of an address, and a render shows the byte at the line and column
that they give. -/
theorem screenBijection : Obligations.ScreenBijection := by
  refine ⟨fun i j hi hj => ⟨lineAddr_add_eq_screenAddr hi j, inScreen_screenAddr hi hj, lineOf_screenAddr hi hj,
    columnOf_screenAddr i hj⟩, fun a ha => ⟨lineOf_lt ha, columnOf_lt a, screenAddr_lineOf_columnOf ha, fun s => ?_⟩⟩
  rw [fbChunk_renderFrame_screen s (lineOf_lt ha) (columnOf_lt a), lineAddr_add_eq_screenAddr (lineOf_lt ha),
    screenAddr_lineOf_columnOf ha]

/-- Settles O35: the render procedure writes each border chunk. -/
theorem borderInvariance : Obligations.BorderInvariance := fun s _ _ => fbChunk_renderFrame_border s

/-- Settles O36: an active row is border at both ends and 32 screen chunks between. -/
theorem activeRow : Obligations.ActiveRow := by
  refine fun s i hi => ⟨fun c hc => fbChunk_renderFrame_border s ?_, fun j => fbChunk_renderFrame_screen s hi⟩
  rw [isBorder]
  omega

/-- Settles O38: row by row, the render procedure leaves the closed form (`paintFrame_eq_frameOf`). -/
theorem renderIsFrame : Obligations.RenderIsFrame := renderFrame_eq

end Sys2Proof.Proofs
end

section
/-! The commands of the frame renderer (42_frame_renderer.md R92 to R94), and what a step does to the frame buffer while
RUNNING. -/

namespace Sys2Proof.Proofs
open Sys2Proof.Machine Sys2Proof.Safety

/-! ### RENDER and FB_RD while IDLE -/

theorem after_render_of_idle {s : State} (hmode : s.runMode = .idle) :
    after .render s = answered { s with fb := frameOf s.mem, fbValid := true } .host .done 0#32 := by
  rw [after, onHost_idle hmode, renderNow, renderFrame_eq]
  rfl

theorem after_fbRd_of_outOfRange {s : State} {row : BitVec 16} {col : BitVec 32} (hmode : s.runMode = .idle)
    (hrange : 280 ≤ row.toNat ∨ 44 ≤ col.toNat) : after (.fbRd row col) s = stopped s .host 0x05#8 := by
  obtain ⟨-, he⟩ := (readChunk_cases row col s).resolve_right fun h => by omega
  rw [after, onHost_idle hmode, he]
  rfl

theorem after_fbRd_of_invalid {s : State} {row : BitVec 16} {col : BitVec 32} (hmode : s.runMode = .idle)
    (hrow : row.toNat < 280) (hcol : col.toNat < 44) (hinvalid : s.fbValid = false) :
    after (.fbRd row col) s = stopped s .host 0x04#8 := by
  rw [after, onHost_idle hmode]
  rcases readChunk_cases row col s with ⟨hrange, -⟩ | ⟨-, -, -, he⟩ | ⟨-, -, hvalid, -⟩
  · omega
  · rw [he]
    rfl
  · cases hinvalid.symm.trans hvalid

theorem after_fbRd_of_valid {s : State} {row : BitVec 16} {col : BitVec 32} (hmode : s.runMode = .idle)
    (hrow : row.toNat < 280) (hcol : col.toNat < 44) (hvalid : s.fbValid = true) :
    after (.fbRd row col) s = answered s .host .value s.fb[row.toNat][col.toNat] := by
  rw [after, onHost_idle hmode]
  rcases readChunk_cases row col s with ⟨hrange, -⟩ | ⟨-, -, hinvalid, -⟩ | ⟨-, -, -, he⟩
  · omega
  · cases hinvalid.symm.trans hvalid
  · rw [he, fbChunk_eq _ _ _ hrow hcol]
    rfl

/-! ### What a step does to the frame buffer -/

/-- The frame buffer of `t` is that of `s`, or `t` is IDLE again after a render of the memory of `s`. -/
def KeptOrRendered (s t : State) : Prop :=
  (t.fb = s.fb ∧ t.fbValid = s.fbValid) ∨
    (t.runMode = .idle ∧ t.mem = s.mem ∧ t.fb = frameOf s.mem ∧ t.fbValid = true)

theorem keptOrRendered_endFrame (F : Tick) (m : Bool) (s : State) : KeptOrRendered s (Machine.endFrame F m s) := by
  rw [endFrame_eq]
  cases m with
  | true => exact .inr ⟨rfl, rfl, rfl, rfl⟩
  | false => exact .inl ⟨rfl, rfl⟩

theorem keptOrRendered_raise (p : Port) (f : BlockFault) (s : State) : KeptOrRendered s (raise p f s) :=
  .inl ⟨raise_fb p f s, raise_fbValid p f s⟩

theorem effect_keptOrRendered {i : Instr} {s t : State} (h : Effect i s t) : KeptOrRendered s t := by
  cases h with
  | render mode => exact .inr ⟨mode, rfl, paintFrame_eq_frameOf s.mem, rfl⟩
  | runFrameEnds | execFrameEnds | stepEndFrame => exact keptOrRendered_endFrame _ _ _
  | cpuWhileIdle | tickAdvOverflow | fbRdRange | fbRdInvalid | cpuAdvOverflow | stepEndZero =>
    exact keptOrRendered_raise _ _ _
  | held | refused | status | memRd | memWr | tickAdv | tickRd | runFrameStarts | execFrameStarts | fbRd | cpuRd | cpuWr
  | cpuAdv | stepEndNext => exact .inl ⟨rfl, rfl⟩

theorem step_keptOrRendered {s t : State} (h : step s = .next t) : KeptOrRendered s t := by
  rcases step_effect h with ⟨-, rfl⟩ | ⟨c, others, i, -, -, heffect⟩ | ⟨c, others, e, -, -, rfl⟩
  · exact .inl ⟨rfl, rfl⟩
  · have hkept : KeptOrRendered { s with inbox := others } t := effect_keptOrRendered heffect
    exact hkept
  · rcases rejectWord_cases c.port { s with inbox := others } with ⟨-, hreject⟩ | ⟨-, hreject⟩ <;> rw [hreject]
    · exact .inl ⟨rfl, rfl⟩
    · exact keptOrRendered_raise _ _ _

/-- The one way out of RUNNING into IDLE is the end of the frame (R73). -/
theorem effect_eq_endFrame_of_ends {i : Instr} {s t : State} {m : Bool} (h : Effect i s t)
    (hmode : s.runMode = .running m) (hidle : t.runMode = .idle) :
    ∃ u, t = Machine.endFrame Config.frameTicks m u := by
  cases h with
  | stepEndFrame mode =>
    cases mode.symm.trans hmode
    exact ⟨_, rfl⟩
  | cpuWhileIdle | cpuAdvOverflow | stepEndZero => simp at hidle
  | held | cpuRd | cpuWr | cpuAdv | stepEndNext => cases hmode.symm.trans hidle
  | status mode => simp [hmode, RunMode.isRunning] at mode
  | refused _ mode | memRd mode | memWr mode | tickAdv mode | tickAdvOverflow mode | tickRd mode | runFrameEnds mode
  | runFrameStarts mode | execFrameEnds mode | execFrameStarts mode | render mode | fbRdRange mode | fbRdInvalid mode
  | fbRd mode => cases hmode.symm.trans mode

theorem step_eq_endFrame_of_ends {s t : State} {m : Bool} (h : step s = .next t)
    (hmode : s.runMode = .running m) (hidle : t.runMode = .idle) :
    ∃ u, t = Machine.endFrame Config.frameTicks m u := by
  rcases step_effect h with ⟨-, rfl⟩ | ⟨c, others, i, -, -, heffect⟩ | ⟨c, others, e, -, -, rfl⟩
  · cases hmode.symm.trans hidle
  · exact effect_eq_endFrame_of_ends heffect hmode hidle
  · rcases rejectWord_cases c.port { s with inbox := others } with ⟨hfaulted, -⟩ | ⟨-, hreject⟩
    · cases hmode.symm.trans hfaulted
    · simp [hreject] at hidle

/-! ### The statements -/

/-- Settles O39: a render in IDLE, whatever TICKS holds. -/
theorem render : Obligations.Render := by
  refine ⟨rfl, fun d a n hne => ?_, fun s hmode => ?_, hostGate_of_port rfl nofun⟩
  · exact unusedIllegal_of_format_f0 (m := .render) rfl hne
  · rw [exec_eq_next, after_render_of_idle hmode]

/-- Settles O40: both sides of the boundary test; afterwards a step renders only as it goes to IDLE, and goes there only
by the end of the frame, which renders. -/
theorem execFrame : Obligations.ExecFrame := by
  refine ⟨rfl, fun d a n hne => ?_, fun s hmode hreached => ?_, fun s hmode hbelow => ?_,
    fun s t _ hstep hfaulted => ?_, fun s t hmode hstep hidle => ?_, hostGate_of_port rfl nofun⟩
  · exact unusedIllegal_of_format_f0 (m := .execFrame) rfl hne
  · refine ⟨s.ticks - Config.frameTicks, ticks_sub_toNat hreached, ?_⟩
    rw [exec_eq_next]
    refine congrArg Host.Outcome.next ((after_frameCommand_of_reached hmode hreached true).trans ?_)
    rw [endFrame_eq, ← hmode]
    rfl
  · rw [exec_eq_next]
    exact congrArg Host.Outcome.next (after_frameCommand_of_below hmode hbelow true)
  · rcases step_keptOrRendered hstep with hkept | ⟨hidle, -⟩
    · exact hkept
    · cases hfaulted.symm.trans hidle
  · obtain ⟨u, rfl⟩ := step_eq_endFrame_of_ends hstep hmode hidle
    rw [endFrame_eq]
    exact ⟨rfl, rfl⟩

/-- Settles O41: the range first, then FB_VALID, then the chunk. -/
theorem fbRd : Obligations.FbRd := by
  intro row col
  refine ⟨rfl, fun d hd => ?_, fun s hmode hrange => ?_, fun s hmode hrow hcol hinvalid => ?_,
    fun s hrow hcol hmode hvalid => ?_, hostGate_of_port rfl nofun⟩
  · exact unusedIllegal_of_unused_ne_zero .fbRd (.inl ⟨rfl, hd⟩)
  · rw [exec_eq_next, after_fbRd_of_outOfRange hmode hrange]
  · rw [exec_eq_next, after_fbRd_of_invalid hmode hrow hcol hinvalid]
  · rw [exec_eq_next, after_fbRd_of_valid hmode hrow hcol hvalid]

end Sys2Proof.Proofs
end

section
/-! The status command (43_status.md R95): its answer, by the fields of STATUS (R21). -/

namespace Sys2Proof.Proofs
open Sys2Proof.Machine Sys2Proof.Safety

/-- The concatenation of R21, as the or of its three fields, each shifted to its place: bit by bit, since no two fields
share a bit. -/
theorem statusRegister_eq_or (s : State) :
    statusRegister s = s.faultCode.setWidth 32 <<< 8 ||| (BitVec.ofBool s.fbValid).setWidth 32 <<< 2 |||
      (stateField s.runMode).setWidth 32 := by
  refine BitVec.eq_of_getLsbD_eq fun i hi => ?_
  simp only [statusRegister, BitVec.getLsbD_append, BitVec.getLsbD_or, BitVec.getLsbD_shiftLeft,
    BitVec.getLsbD_setWidth, BitVec.getLsbD_zero]
  grind

theorem fbValidField_eq (valid : Bool) :
    (BitVec.ofBool valid).setWidth 32 <<< 2 = if valid then 0x4#32 else 0x0#32 := by
  cases valid <;> decide

/-- STATE is 0 while IDLE and 2 while FAULTED (R21). -/
theorem stateField_eq_of_not_running {mode : RunMode} (hmode : mode.isRunning = false) :
    (stateField mode).setWidth 32 = if mode = .faulted then 0x2#32 else 0x0#32 := by
  cases mode with
  | idle | faulted => rfl
  | running _ => cases hmode

theorem exec_statusRd_of_not_running {s : State} (hmode : s.runMode.isRunning = false) :
    exec .statusRd s = .next (answered s .host .value (statusRegister s)) := by
  rw [exec_eq_next, after, if_neg (by simp [hmode])]
  rfl

/-- Settles O44: the fields of STATUS by `statusRegister_eq_or`, in the two modes that answer. -/
theorem statusRd : Obligations.StatusRd := by
  refine ⟨rfl, fun d a n hne => ?_, fun s hmode => ?_⟩
  · exact unusedIllegal_of_format_f0 (m := .statusRd) rfl hne
  · rw [exec_statusRd_of_not_running hmode, statusRegister_eq_or, fbValidField_eq,
      stateField_eq_of_not_running hmode]

end Sys2Proof.Proofs
end

section
/-! Fault entry and the fault causes (60_exceptions.md R97 to R99): a step that enters FAULTED is one fault entry of one
cause, and every cause has its fault entry. -/

namespace Sys2Proof.Proofs
open Sys2Proof.Machine Sys2Proof.Safety

/-! ### The causes -/

/-- The cause of a fault in the step from `s` (R97); the two reserved faults have none. -/
def FaultCause (s : State) : BlockFault → Prop
  | .illegalCommand => ∃ c others, takeNext s.runMode s.inbox = some (c, others) ∧
      ((∃ e, decode c.port c.word = .error e) ∨ (c.port = .cpu ∧ s.runMode = .idle))
  | .zeroProgressStep => Runs s .cpuStepEnd ∧ s.runMode.isRunning = true ∧ s.stepAcc = 0#32
  | .tickOverflow => ∃ x : Tick,
      (Runs s (.tickAdv x) ∨ (Runs s (.cpuAdv x) ∧ s.runMode.isRunning = true)) ∧ 2 ^ 32 ≤ s.ticks.toNat + x.toNat
  | .fbNotValid => s.fbValid = false ∧ ∃ row col, Runs s (.fbRd row col) ∧ row.toNat < 280 ∧ col.toNat < 44
  | .fbIndexRange => ∃ row col, Runs s (.fbRd row col) ∧ (280 ≤ row.toNat ∨ 44 ≤ col.toNat)
  | .addressRange | .configInvalid => False

theorem blockFault_code_injective {f g : BlockFault} (h : f.code = g.code) : f = g := by
  cases f <;> cases g <;> simp [BlockFault.code] at h ⊢

/-- The reserved codes have no cause (R97). -/
theorem code_le_of_faultCause {s : State} {f : BlockFault} (h : FaultCause s f) :
    1 ≤ f.code.toNat ∧ f.code.toNat ≤ 5 := by
  cases f with
  | illegalCommand | zeroProgressStep | tickOverflow | fbNotValid | fbIndexRange => decide
  | addressRange | configInvalid => exact h.elim

/-! ### A step that enters FAULTED has a cause -/

/-- A word is accepted on the port of its command only (R52). -/
theorem port_eq_of_decode {p : Port} {w : Word} {i : Instr} (h : decode p w = .ok i) : i.port = p := by
  obtain ⟨m, -, hport, -, rfl⟩ := Laws.decode_eq_ok.mp h
  rw [Instr.port, mnemonic_assemble, hport]

/-- A command that enters FAULTED is the fault entry of a cause, on the port its word came to. -/
theorem effect_eq_raise_of_faults {s t : State} {c : PortWord} {others : List PortWord} {i : Instr}
    (htake : takeNext s.runMode s.inbox = some (c, others)) (hdecode : decode c.port c.word = .ok i)
    (heffect : Effect i { s with inbox := others } t) (hmode : s.runMode ≠ .faulted) (hfaults : t.runMode = .faulted) :
    ∃ f, FaultCause s f ∧ t = raise c.port f { s with inbox := others } := by
  have hruns : Runs s i := ⟨c, others, htake, hdecode⟩
  rw [← port_eq_of_decode hdecode]
  cases heffect with
  | cpuWhileIdle port mode =>
    have hport : c.port = .cpu := (port_eq_of_decode hdecode).symm.trans port
    exact ⟨.illegalCommand, ⟨c, others, htake, .inr ⟨hport, mode⟩⟩, by rw [port]⟩
  | tickAdvOverflow mode overflow => exact ⟨.tickOverflow, ⟨_, .inl hruns, overflow⟩, rfl⟩
  | cpuAdvOverflow mode overflow =>
    exact ⟨.tickOverflow, ⟨_, .inr ⟨hruns, congrArg RunMode.isRunning mode⟩, overflow⟩, rfl⟩
  | stepEndZero mode zero => exact ⟨.zeroProgressStep, ⟨hruns, congrArg RunMode.isRunning mode, zero⟩, rfl⟩
  | fbRdRange mode range => exact ⟨.fbIndexRange, ⟨_, _, hruns, range⟩, rfl⟩
  | fbRdInvalid mode hrow hcol invalid => exact ⟨.fbNotValid, ⟨invalid, _, _, hruns, hrow, hcol⟩, rfl⟩
  | runFrameEnds | execFrameEnds | stepEndFrame => simp at hfaults
  | runFrameStarts | execFrameStarts => cases hfaults
  | held | refused | status | memRd | memWr | tickAdv | tickRd | render | fbRd | cpuRd | cpuWr | cpuAdv
  | stepEndNext => exact absurd hfaults hmode

/-- A step that enters FAULTED is the fault entry of a cause, on the port of the word it took. -/
theorem step_eq_raise_of_faults {s t : State} (hstep : step s = .next t) (hmode : s.runMode ≠ .faulted)
    (hfaults : t.runMode = .faulted) :
    ∃ c others f, takeNext s.runMode s.inbox = some (c, others) ∧ FaultCause s f ∧
      t = raise c.port f { s with inbox := others } := by
  rcases step_effect hstep with
    ⟨-, rfl⟩ | ⟨c, others, i, htake, hdecode, heffect⟩ | ⟨c, others, e, htake, hdecode, rfl⟩
  · exact absurd hfaults hmode
  · exact ⟨c, others, (effect_eq_raise_of_faults htake hdecode heffect hmode hfaults).imp fun _ h => ⟨htake, h⟩⟩
  · obtain ⟨-, hraise⟩ := (rejectWord_cases c.port { s with inbox := others }).resolve_left fun h => hmode h.1
    exact ⟨c, others, .illegalCommand, htake, ⟨c, others, htake, .inl ⟨e, hdecode⟩⟩, hraise⟩

/-! ### A cause makes the step enter FAULTED -/

/-- The step that runs a command leaves what the command leaves. -/
theorem step_eq_after_of_runs {s t : State} {i : Instr} (h : Runs s i) (hstep : step s = .next t) :
    ∃ others, t = after i { s with inbox := others } := by
  obtain ⟨c, others, htake, hdecode⟩ := h
  rw [step_of_decode htake hdecode] at hstep
  exact ⟨others, exec_next_iff.mp hstep⟩

/-- A host-port command runs only while IDLE, outside FAULTED (R56). -/
theorem idle_of_runs_host {s : State} {i : Instr} (h : Runs s i) (hport : i.port = .host)
    (hmode : s.runMode ≠ .faulted) : s.runMode = .idle := by
  obtain ⟨c, others, htake, hdecode⟩ := h
  cases hm : s.runMode with
  | idle => rfl
  | faulted => exact absurd hm hmode
  | running m =>
    have hcpu : c.port = .cpu := takeNext_port htake (by rw [hm]; rfl)
    cases hport.symm.trans ((port_eq_of_decode hdecode).trans hcpu)

/-- A step that takes a word of no command, or a CPU-port word while IDLE, is the fault entry for ILLEGAL_COMMAND. -/
theorem step_eq_raise_illegalCommand {s t : State} (hstep : step s = .next t) (hmode : s.runMode ≠ .faulted)
    (hcause : FaultCause s .illegalCommand) : ∃ p u, t = raise p .illegalCommand u := by
  obtain ⟨c, others, htake, hreason⟩ := hcause
  cases hdecode : decode c.port c.word with
  | error e =>
    obtain ⟨-, hraise⟩ := (rejectWord_cases c.port { s with inbox := others }).resolve_left fun h => hmode h.1
    rw [step_of_reject htake hdecode, hraise] at hstep
    exact ⟨_, _, (Host.Outcome.next.inj hstep).symm⟩
  | ok i =>
    obtain ⟨hcpu, hidle⟩ := hreason.resolve_left fun ⟨e, he⟩ => by cases hdecode.symm.trans he
    rw [step_of_decode htake hdecode, exec_next_iff] at hstep
    exact ⟨.cpu, _, hstep.trans (after_eq_raise_of_idle ((port_eq_of_decode hdecode).trans hcpu) hidle)⟩

theorem step_faults_of_faultCause {s t : State} {f : BlockFault} (hstep : step s = .next t)
    (hmode : s.runMode ≠ .faulted) (hcause : FaultCause s f) : t.runMode = .faulted ∧ t.faultCode = f.code := by
  cases f with
  | illegalCommand =>
    obtain ⟨p, u, rfl⟩ := step_eq_raise_illegalCommand hstep hmode hcause
    exact ⟨raise_runMode _ _ _, raise_faultCode _ _ _⟩
  | zeroProgressStep =>
    obtain ⟨hruns, hrunning, hzero⟩ := hcause
    obtain ⟨others, rfl⟩ := step_eq_after_of_runs hruns hstep
    rw [after_cpuStepEnd_of_zero (s := { s with inbox := others }) hrunning hzero]
    exact ⟨rfl, rfl⟩
  | tickOverflow =>
    obtain ⟨x, hruns | ⟨hruns, hrunning⟩, hover⟩ := hcause <;>
      obtain ⟨others, rfl⟩ := step_eq_after_of_runs hruns hstep
    · have hidle := idle_of_runs_host hruns rfl hmode
      rw [after_tickAdv_of_overflow (s := { s with inbox := others }) hidle hover]
      exact ⟨rfl, rfl⟩
    · rw [after_cpuAdv_of_overflow (s := { s with inbox := others }) hrunning hover]
      exact ⟨rfl, rfl⟩
  | fbNotValid =>
    obtain ⟨hinvalid, row, col, hruns, hrow, hcol⟩ := hcause
    have hidle := idle_of_runs_host hruns rfl hmode
    obtain ⟨others, rfl⟩ := step_eq_after_of_runs hruns hstep
    rw [after_fbRd_of_invalid (s := { s with inbox := others }) hidle hrow hcol hinvalid]
    exact ⟨rfl, rfl⟩
  | fbIndexRange =>
    obtain ⟨row, col, hruns, hrange⟩ := hcause
    have hidle := idle_of_runs_host hruns rfl hmode
    obtain ⟨others, rfl⟩ := step_eq_after_of_runs hruns hstep
    rw [after_fbRd_of_outOfRange (s := { s with inbox := others }) hidle hrange]
    exact ⟨rfl, rfl⟩
  | addressRange | configInvalid => exact hcause.elim

/-- Outside FAULTED a step raises a fault exactly when its cause holds (R97). -/
theorem step_faults_iff_faultCause {s t : State} (hstep : step s = .next t) (hmode : s.runMode ≠ .faulted)
    (f : BlockFault) : t.runMode = .faulted ∧ t.faultCode = f.code ↔ FaultCause s f := by
  refine ⟨fun ⟨hfaults, hcode⟩ => ?_, step_faults_of_faultCause hstep hmode⟩
  obtain ⟨c, others, g, -, hcause, rfl⟩ := step_eq_raise_of_faults hstep hmode hfaults
  rw [raise_faultCode] at hcode
  exact blockFault_code_injective hcode ▸ hcause

/-! ### The statements -/

/-- Settles O46: the causes of `FaultCause` are those of the table, code by code. -/
theorem faultCauses : Obligations.FaultCauses := by
  intro s t hstep hmode
  have hiff := step_faults_iff_faultCause hstep hmode
  refine ⟨fun hfaults => ?_, hiff .illegalCommand, hiff .zeroProgressStep, hiff .tickOverflow, hiff .fbNotValid,
    hiff .fbIndexRange⟩
  obtain ⟨c, others, f, -, hcause, rfl⟩ := step_eq_raise_of_faults hstep hmode hfaults
  rw [raise_faultCode]
  exact code_le_of_faultCause hcause

/-- Settles O48: while RUNNING the word taken is a CPU-port word, whose fault entry is `stoppedFrame`. -/
theorem faultDuringFrame : Obligations.FaultDuringFrame := by
  intro s t hrunning hstep hfaults
  obtain ⟨m, hm⟩ := exists_running_of_isRunning hrunning
  obtain ⟨c, others, f, htake, -, rfl⟩ := step_eq_raise_of_faults hstep (by simp [hm]) hfaults
  have hcpu : c.port = .cpu := takeNext_port htake hrunning
  refine ⟨c, others, htake, hcpu, ?_⟩
  rw [raise_faultCode, hcpu]
  exact raise_cpu_eq_stoppedFrame (s := { s with inbox := others }) hm f

/-- Settles O47: the two forms of the fault entry, outside a frame and during one. -/
theorem faultEntry : Obligations.FaultEntry := by
  refine ⟨fun p f s hrunning => raise_of_not_running hrunning p f, fun f s hrunning => ?_⟩
  obtain ⟨m, hm⟩ := exists_running_of_isRunning hrunning
  exact raise_cpu_running hm f

end Sys2Proof.Proofs
end

section
/-! The state after reset (70_reset_and_hazards.md R111). -/

namespace Sys2Proof.Proofs
open Sys2Proof.Machine Sys2Proof.Safety

/-- The three fields of STATUS (R21) are 0 at reset: no fault, no valid frame, IDLE. -/
theorem statusRegister_reset : statusRegister State.reset = 0#32 := by
  rw [statusRegister_eq_or, fbValidField_eq, stateField_eq_of_not_running rfl]
  decide

/-- FB holds no value at reset: an FB_RD in range finds FB_VALID clear. -/
theorem exec_fbRd_reset {row : BitVec 16} {col : BitVec 32} (hrow : row.toNat < 280) (hcol : col.toNat < 44) :
    exec (.fbRd row col) State.reset = .next (stopped State.reset .host 0x04#8) := by
  rw [exec_eq_next, after_fbRd_of_invalid rfl hrow hcol rfl]

/-- Settles O51: memory lists no byte, so it reads as INIT_MEMORY; the registers are fields of `State.reset`; STATUS and
FB_RD by their lemmas above. -/
theorem resetState : Obligations.ResetState := by
  have hmem : ∀ a : Addr, State.reset.mem.read a = Config.initMemory a := Memory.read_nil
  exact ⟨hmem, rfl, rfl, rfl, rfl, rfl, statusRegister_reset, fun _ _ => exec_fbRd_reset⟩

end Sys2Proof.Proofs
end

section
/-! The round trip of the encoding (30_encoding.md R49 to R55): a word is put together again from its fields. -/

namespace Sys2Proof.Proofs
open Sys2Proof.Machine Sys2Proof.Safety

/-- With zero in the fields that the row's format does not use, the row's command is written as the row's opcode and the
fields of the word it was read from (R50, R54). -/
theorem encode_assemble_eq_packWord {m : Mnemonic} {w : Word} (hzero : unusedFieldsZero m.format w = true) :
    encode (m.assemble w) = packWord m.opcode (dField w) (aField w) (nField w) := by
  simp only [unusedFieldsZero, Bool.and_eq_true, Bool.or_eq_true, beq_iff_eq, and_assoc] at hzero
  obtain ⟨hd, ha, hn⟩ := hzero
  cases m with
  | memRd | cpuRd => rw [hd.resolve_left nofun, hn.resolve_left nofun]; rfl
  | memWr | cpuWr => rw [hn.resolve_left nofun]; rfl
  | tickAdv | cpuAdv => rw [hd.resolve_left nofun, ha.resolve_left nofun]; rfl
  | fbRd => rw [hd.resolve_left nofun]; rfl
  | tickRd | runFrame | render | execFrame | statusRd | cpuStepEnd =>
    rw [hd.resolve_left nofun, ha.resolve_left nofun, hn.resolve_left nofun]; rfl

/-- A word that decodes is written again by the encoder: no two words are one command. -/
theorem encode_eq_of_decode {p : Port} {w : Word} {i : Instr} (h : decode p w = .ok i) : encode i = w := by
  obtain ⟨m, hop, -, hzero, rfl⟩ := Laws.decode_eq_ok.mp h
  rw [encode_assemble_eq_packWord hzero, ← hop, Laws.packWord_fields]

/-- Settles O1: the decoder reads the row, the port and the operands that the encoder wrote. -/
theorem decodeEncode : Obligations.DecodeEncode := decode_port_encode

/-- Settles O2: the word is its four fields, which the encoder writes again. -/
theorem encodeDecode : Obligations.EncodeDecode :=
  fun _ _ _ h => ⟨encode_eq_of_decode h, port_eq_of_decode h⟩

end Sys2Proof.Proofs
end

section
/-! What a step counts in the model's record of the words sent (30_encoding.md R57, R58). -/

namespace Sys2Proof.Proofs
open Sys2Proof.Machine Sys2Proof.Safety

/-! ### Counting the words sent -/

/-- The word is a response on the port: any word sent there but a step request (R57, R58). -/
def isResponse (p : Port) (c : PortWord) : Bool := c.port == p && c != stepRequest

theorem responses_eq_countP (p : Port) (s : State) : responses p s = s.sent.countP (isResponse p) :=
  List.countP_eq_length_filter.symm

theorem stepRequests_eq_count (s : State) : stepRequests s = s.sent.count stepRequest :=
  List.countP_eq_length_filter.symm

/-- No response is a step request: RKIND is never 0x80 (R57, R58). -/
@[simp] theorem response_ne_stepRequest (p : Port) (k : RespKind) (v : BitVec 32) :
    (⟨p, responseWord k v⟩ : PortWord) ≠ stepRequest := by
  intro h
  have hop : k.code = opField stepRequest.word := by rw [← opField_responseWord k v, ← h]
  revert hop
  cases k <;> decide

@[simp] theorem isResponse_response (p q : Port) (k : RespKind) (v : BitVec 32) :
    isResponse p ⟨q, responseWord k v⟩ = (q == p) := by
  simp [isResponse]

@[simp] theorem isResponse_stepReqWord (p : Port) : isResponse p ⟨.cpu, stepReqWord⟩ = false := by
  cases p <;> decide

theorem stepReqWord_eq_stepRequest : (⟨.cpu, stepReqWord⟩ : PortWord) = stepRequest := rfl

/-! ### Responses, with those owed -/

@[simp] theorem isRunning_idle : RunMode.idle.isRunning = false := rfl

@[simp] theorem isRunning_running (m : Bool) : (RunMode.running m).isRunning = true := rfl

@[simp] theorem isRunning_faulted : RunMode.faulted.isRunning = false := rfl

/-- The responses sent on a port and those still owed to it: a frame in progress owes the host one (R57). -/
def responsesDue (p : Port) (s : State) : Nat :=
  responses p s + if p = .host then owedToHost s else 0

theorem responsesDue_host (s : State) : responsesDue .host s = responses .host s + owedToHost s := rfl

theorem responsesDue_cpu (s : State) : responsesDue .cpu s = responses .cpu s := rfl

@[simp] theorem owedToHost_respond (p : Port) (k : RespKind) (v : BitVec 32) (s : State) :
    owedToHost (respond p k v s) = owedToHost s := rfl

@[simp] theorem owedToHost_requestStep (s : State) : owedToHost (requestStep s) = owedToHost s := rfl

@[simp] theorem responsesDue_respond (p q : Port) (k : RespKind) (v : BitVec 32) (s : State) :
    responsesDue p (respond q k v s) = responsesDue p s + if q = p then 1 else 0 := by
  simp [responsesDue, responses_eq_countP, Nat.add_right_comm]

/-- A fault entry adds one response, on the port of the word: the second FAULT, to the host, is the one that the frame
owed (R99). -/
theorem responsesDue_raise {q : Port} {s : State} (hport : s.runMode.isRunning = true → q = .cpu) (p : Port)
    (f : BlockFault) : responsesDue p (raise q f s) = responsesDue p s + if q = p then 1 else 0 := by
  cases hrun : s.runMode.isRunning with
  | false => simp [responsesDue, responses_eq_countP, owedToHost, raise_sent, hrun]
  | true =>
    cases hport hrun
    cases p <;> simp [responsesDue, responses_eq_countP, owedToHost, raise_sent, hrun]

/-- The DONE at the end of a frame is the one that the frame owed (R71). -/
theorem responsesDue_endFrame_of_running {s : State} (hrun : s.runMode.isRunning = true) (p : Port) (F : Tick)
    (m : Bool) : responsesDue p (Machine.endFrame F m s) = responsesDue p s := by
  cases p <;> simp [responsesDue, responses_eq_countP, owedToHost, hrun]

/-- A frame that ends at once answers its command (R72, R93). -/
theorem responsesDue_endFrame_of_idle {s : State} (hidle : s.runMode = .idle) (p : Port) (F : Tick) (m : Bool) :
    responsesDue p (Machine.endFrame F m s) = responsesDue p s + if .host = p then 1 else 0 := by
  simp [responsesDue, responses_eq_countP, owedToHost, hidle]

@[simp] theorem responsesDue_requestStep (p : Port) (s : State) :
    responsesDue p (requestStep s) = responsesDue p s := by
  simp [responsesDue, responses_eq_countP]

/-- A frame that starts owes the host its response (R72, R93). -/
theorem responsesDue_running {s : State} (hidle : s.runMode = .idle) (p : Port) (m : Bool) :
    responsesDue p { s with runMode := .running m } = responsesDue p s + if .host = p then 1 else 0 := by
  simp [responsesDue, responses_eq_countP, owedToHost, hidle, eq_comm]

/-- A command that is accepted adds one response, sent or owed, on its port. -/
theorem effect_responsesDue {i : Instr} {s t : State} (h : Effect i s t)
    (haccepted : s.runMode.isRunning = true → i.port = .cpu) (p : Port) :
    responsesDue p t = responsesDue p s + if i.port = p then 1 else 0 := by
  cases h with
  | held port mode => cases port.symm.trans (haccepted mode)
  | cpuWhileIdle port =>
    rw [← port]
    exact responsesDue_raise haccepted _ _
  | tickAdvOverflow | fbRdRange | fbRdInvalid | cpuAdvOverflow | stepEndZero => exact responsesDue_raise haccepted _ _
  | runFrameEnds mode | execFrameEnds mode => exact responsesDue_endFrame_of_idle mode _ _ _
  | runFrameStarts mode | execFrameStarts mode =>
    exact (responsesDue_requestStep _ _).trans (responsesDue_running mode _ _)
  | stepEndFrame mode =>
    have hrun : (respond .cpu .done 0#32 s).runMode.isRunning = true := congrArg RunMode.isRunning mode
    exact (responsesDue_endFrame_of_running hrun _ _ _).trans (responsesDue_respond _ _ _ _ _)
  | stepEndNext => exact (responsesDue_requestStep _ _).trans (responsesDue_respond _ _ _ _ _)
  | refused | status | memRd | memWr | tickAdv | tickRd | render | fbRd | cpuRd | cpuWr | cpuAdv =>
    exact responsesDue_respond _ _ _ _ _

/-- A step that takes a word adds one response, sent or owed, on the word's port. -/
theorem step_responsesDue {s t : State} {c : PortWord} {others : List PortWord}
    (htake : takeNext s.runMode s.inbox = some (c, others)) (hstep : step s = .next t) (p : Port) :
    responsesDue p t = responsesDue p s + if c.port = p then 1 else 0 := by
  cases hdecode : decode c.port c.word with
  | ok i =>
    have hport := port_eq_of_decode hdecode
    rw [step_of_decode htake hdecode] at hstep
    rw [← hport]
    exact effect_responsesDue (exec_effect hstep) (fun hrun => hport.trans (takeNext_port htake hrun)) p
  | error e =>
    rw [step_of_reject htake hdecode] at hstep
    cases hstep
    rcases rejectWord_cases c.port { s with inbox := others } with ⟨-, hreject⟩ | ⟨-, hreject⟩ <;> rw [hreject]
    · exact responsesDue_respond _ _ _ _ _
    · exact responsesDue_raise (s := { s with inbox := others }) (takeNext_port htake) _ _

/-! ### The layout of a response -/

/-- R57: RKIND in 63:56, 0 in 55:32, RVAL in 31:0. -/
theorem responseWord_fields (k : RespKind) (v : BitVec 32) :
    (responseWord k v).extractLsb' 56 8 = k.code ∧ (responseWord k v).extractLsb' 32 24 = 0#24 ∧
      (responseWord k v).extractLsb' 0 32 = v := by
  refine ⟨opField_responseWord k v, ?_, ?_⟩
  · rw [responseWord, BitVec.extractLsb'_append_eq_of_le (by decide)]
    rw [BitVec.extractLsb'_append_eq_of_add_le (by decide)]
    simp
  · rw [responseWord, BitVec.extractLsb'_append_eq_of_add_le (by decide)]
    simp

/-- Settles O9: the layout by R57's concatenation, the count by `step_responsesDue` for each port. -/
theorem oneResponse : Obligations.OneResponse := by
  refine ⟨fun p k v => ?_, fun s t c others htake hstep => ?_⟩
  · obtain ⟨hkind, hzero, hval⟩ := responseWord_fields k v
    refine ⟨rfl, hkind.trans ?_, hzero, hval⟩
    cases k <;> rfl
  · rw [← responsesDue_host, ← responsesDue_host, ← responsesDue_cpu, ← responsesDue_cpu]
    exact ⟨step_responsesDue htake hstep .host, step_responsesDue htake hstep .cpu⟩

/-! ### Step requests -/

@[simp] theorem stepRequests_respond (p : Port) (k : RespKind) (v : BitVec 32) (s : State) :
    stepRequests (respond p k v s) = stepRequests s := by
  simp [stepRequests_eq_count]

@[simp] theorem stepRequests_raise (p : Port) (f : BlockFault) (s : State) :
    stepRequests (raise p f s) = stepRequests s := by
  rw [stepRequests_eq_count, stepRequests_eq_count, raise_sent]
  split <;> simp

@[simp] theorem stepRequests_endFrame (F : Tick) (m : Bool) (s : State) :
    stepRequests (Machine.endFrame F m s) = stepRequests s := by
  simp [stepRequests_eq_count]

@[simp] theorem stepRequests_requestStep (s : State) : stepRequests (requestStep s) = stepRequests s + 1 := by
  simp [stepRequests_eq_count, stepReqWord_eq_stepRequest]

/-- From `s` to `t` a step was requested, as a frame started or, `stepEnded` being the case, as a step ended in a frame
that goes on: STEP_REQ went out once, with STEP_ACC = 0 (R20, R58). Or none was, no frame started, and `stepEnded` is
not the case in a frame that goes on. -/
def RequestedOrNot (stepEnded : Prop) (s t : State) : Prop :=
  ((s.runMode.isRunning = false ∨ stepEnded) ∧ stepRequests t = stepRequests s + 1 ∧ t.stepAcc = 0#32 ∧
    t.runMode.isRunning = true) ∨
  (stepRequests t = stepRequests s ∧ (t.runMode.isRunning = true → s.runMode.isRunning = true ∧ ¬ stepEnded))

/-- A response alone, in the same mode, is no step request. -/
theorem requestedOrNot_respond {stepEnded : Prop} {s u : State} {p : Port} {k : RespKind} {v : BitVec 32}
    (hsent : u.sent = s.sent) (hmode : u.runMode = s.runMode) (hnot : s.runMode.isRunning = true → ¬ stepEnded) :
    RequestedOrNot stepEnded s (respond p k v u) := by
  refine .inr ⟨?_, fun hrun => ?_⟩
  · rw [stepRequests_respond, stepRequests_eq_count, hsent, stepRequests_eq_count]
  · rw [respond_runMode, hmode] at hrun
    exact ⟨hrun, hnot hrun⟩

theorem effect_requestedOrNot {i : Instr} {s t : State} (h : Effect i s t) :
    RequestedOrNot (i = .cpuStepEnd) s t := by
  cases h with
  | runFrameStarts mode | execFrameStarts mode =>
    exact .inl ⟨.inl (by rw [mode]; rfl), stepRequests_requestStep _, rfl, rfl⟩
  | stepEndNext mode =>
    refine .inl ⟨.inr rfl, ?_, rfl, congrArg RunMode.isRunning mode⟩
    rw [stepRequests_requestStep, stepRequests_respond]
  | cpuWhileIdle | tickAdvOverflow | fbRdRange | fbRdInvalid | cpuAdvOverflow | stepEndZero =>
    exact .inr ⟨stepRequests_raise _ _ _, by simp⟩
  | runFrameEnds | execFrameEnds | stepEndFrame => exact .inr ⟨by simp, by simp⟩
  | held port mode => exact .inr ⟨rfl, fun _ => ⟨mode, by rintro rfl; cases port⟩⟩
  | refused _ mode => exact requestedOrNot_respond rfl rfl fun hrun => by simp [mode] at hrun
  | status | memRd | memWr | tickAdv | tickRd | render | fbRd | cpuRd | cpuWr | cpuAdv =>
    exact requestedOrNot_respond rfl rfl fun _ => nofun

/-- The command that a step runs is the one its word decodes to. -/
theorem runs_iff_eq {s : State} {c : PortWord} {others : List PortWord} {i : Instr}
    (htake : takeNext s.runMode s.inbox = some (c, others)) (hdecode : decode c.port c.word = .ok i) (j : Instr) :
    Runs s j ↔ i = j := by
  constructor
  · rintro ⟨c', others', htake', hdecode'⟩
    cases htake.symm.trans htake'
    exact Except.ok.inj (hdecode.symm.trans hdecode')
  · rintro rfl
    exact ⟨c, others, htake, hdecode⟩

theorem step_requestedOrNot {s t : State} (hstep : step s = .next t) : RequestedOrNot (Runs s .cpuStepEnd) s t := by
  rcases step_effect hstep with
    ⟨htake, rfl⟩ | ⟨c, others, i, htake, hdecode, heffect⟩ | ⟨c, others, e, htake, hdecode, rfl⟩
  · refine .inr ⟨rfl, fun hrun => ⟨hrun, ?_⟩⟩
    rintro ⟨c, others, htake', -⟩
    cases htake.symm.trans htake'
  · rw [runs_iff_eq htake hdecode]
    exact effect_requestedOrNot (s := { s with inbox := others }) heffect
  · rcases rejectWord_cases c.port { s with inbox := others } with ⟨hmode, hreject⟩ | ⟨-, hreject⟩ <;> rw [hreject]
    · exact requestedOrNot_respond rfl rfl fun hrun => by simp [show s.runMode = .faulted from hmode] at hrun
    · exact .inr ⟨stepRequests_raise _ _ _, by simp⟩

/-- Settles O10: the two cases of `RequestedOrNot` exclude each other. -/
theorem oneStepOutstanding : Obligations.OneStepOutstanding := by
  intro s t hstep
  rcases step_requestedOrNot hstep with ⟨hstart, hcount, hacc, hrun⟩ | ⟨hcount, hkept⟩
  · exact ⟨fun _ => ⟨hcount, hacc⟩, fun hnot => absurd ⟨hrun, hstart⟩ hnot⟩
  · refine ⟨fun ⟨hrun, hstart⟩ => ?_, fun _ => hcount⟩
    obtain ⟨hbefore, hnotEnd⟩ := hkept hrun
    exact hstart.elim (fun hidle => by cases hidle.symm.trans hbefore) fun hend => absurd hend hnotEnd

end Sys2Proof.Proofs
end

section
/-! Which word a step takes, and what becomes of it in each mode (30_encoding.md R56; 60_exceptions.md R100). -/

namespace Sys2Proof.Proofs
open Sys2Proof.Machine Sys2Proof.Safety

/-! ### The word that is taken -/

theorem takeNext_of_running {mode : RunMode} (h : mode.isRunning = true) (inbox : List PortWord) :
    takeNext mode inbox = takeCpu inbox := by
  obtain ⟨m, rfl⟩ := exists_running_of_isRunning h
  rfl

theorem takeNext_cons_of_not_running {mode : RunMode} (h : mode.isRunning = false) (c : PortWord)
    (rest : List PortWord) : takeNext mode (c :: rest) = some (c, rest) := by
  cases mode with
  | idle | faulted => rfl
  | running _ => cases h

theorem step_of_takeNext_none {s : State} (h : takeNext s.runMode s.inbox = none) : step s = .next s := by
  rw [step, h]

/-- While RUNNING the words of the host port are passed over (R56). -/
theorem filter_host_of_takeCpu {l : List PortWord} {c : PortWord} {others : List PortWord}
    (h : takeCpu l = some (c, others)) :
    others.filter (fun d => d.port == .host) = l.filter fun d => d.port == .host := by
  induction l generalizing others with
  | nil => cases h
  | cons d rest ih =>
    rw [takeCpu] at h
    cases hport : d.port with
    | cpu =>
      rw [hport] at h
      cases h
      simp [hport]
    | host =>
      cases hrest : takeCpu rest with
      | none => simp [hport, hrest] at h
      | some pair =>
        simp only [hport, hrest] at h
        cases h
        simp [hport, ih hrest]

/-! ### FAULTED -/

/-- STATUS_RD and its word, the one that FAULTED answers (R100). -/
theorem statusRd_of_decode {c : PortWord} (h : decode c.port c.word = .ok .statusRd) :
    c.port = .host ∧ c.word = 0x0900000000000000#64 :=
  ⟨(port_eq_of_decode h).symm, (encode_eq_of_decode h).symm⟩

theorem step_of_faulted_statusRd {s : State} {c : PortWord} {rest : List PortWord} (hmode : s.runMode = .faulted)
    (hinbox : s.inbox = c :: rest) (hstatus : c.port = .host ∧ c.word = 0x0900000000000000#64) :
    step s = .next (answered { s with inbox := rest } .host .value (statusRegister s)) := by
  obtain ⟨hport, hword⟩ := hstatus
  have hidle : s.runMode.isRunning = false := by rw [hmode]; rfl
  have hdecode : decode c.port c.word = .ok .statusRd := by
    rw [hport, hword]
    exact decode_port_encode .statusRd
  rw [step_of_decode (hinbox ▸ takeNext_cons_of_not_running hidle c rest) hdecode]
  exact exec_statusRd_of_not_running hidle

theorem step_of_faulted_refused {s : State} {c : PortWord} {rest : List PortWord} (hmode : s.runMode = .faulted)
    (hinbox : s.inbox = c :: rest) (hother : ¬ (c.port = .host ∧ c.word = 0x0900000000000000#64)) :
    step s = .next (answered { s with inbox := rest } c.port .refused (s.faultCode.setWidth 32)) := by
  have htake : takeNext s.runMode s.inbox = some (c, rest) :=
    hinbox ▸ takeNext_cons_of_not_running (by rw [hmode]; rfl) c rest
  cases hdecode : decode c.port c.word with
  | ok i =>
    have hi : i ≠ .statusRd := by
      rintro rfl
      exact hother (statusRd_of_decode hdecode)
    rw [step_of_decode htake hdecode, exec_eq_next,
      after_eq_refuse_of_faulted (s := { s with inbox := rest }) hi hmode, port_eq_of_decode hdecode]
    rfl
  | error e =>
    obtain ⟨-, hrefuse⟩ := (rejectWord_cases c.port { s with inbox := rest }).resolve_right fun h => h.1 hmode
    rw [step_of_reject htake hdecode, hrefuse]
    rfl

/-- Settles O49: the one word that decodes to STATUS_RD is its encoding; every other is REFUSED, decoded or not. -/
theorem faultedState : Obligations.FaultedState := by
  refine fun s hmode => ⟨fun hinbox => step_of_takeNext_none ?_, fun c rest hinbox =>
    ⟨step_of_faulted_statusRd hmode hinbox, step_of_faulted_refused hmode hinbox⟩⟩
  rw [hmode, hinbox]
  rfl

/-! ### IDLE and RUNNING -/

/-- While IDLE a word of the CPU port is ILLEGAL_COMMAND, whether or not it decodes (R56). -/
theorem step_of_idle_cpu {s : State} {c : PortWord} {rest : List PortWord} (hmode : s.runMode = .idle)
    (hinbox : s.inbox = c :: rest) (hport : c.port = .cpu) :
    step s = .next (stopped { s with inbox := rest } .cpu 0x01#8) := by
  have hidle : s.runMode.isRunning = false := by rw [hmode]; rfl
  have htake : takeNext s.runMode s.inbox = some (c, rest) := hinbox ▸ takeNext_cons_of_not_running hidle c rest
  cases hdecode : decode c.port c.word with
  | ok i =>
    rw [step_of_decode htake hdecode]
    exact (cpuGate_of_port ((port_eq_of_decode hdecode).trans hport) { s with inbox := rest }).1 hmode
  | error e =>
    rw [step_eq_illegal_of_decode_error htake (by simp [hmode]) hdecode, illegal, if_neg (by simp [hmode]), hport]

/-- Settles O8: the word that is taken in each mode, and the step that takes it. -/
theorem acceptance : Obligations.Acceptance := by
  refine fun s => ⟨fun held c rest hrun hheld hport hinbox => ?_, fun hrun hheld => step_of_takeNext_none ?_,
    fun c rest hmode hinbox => ⟨fun hport i hdecode => ?_, step_of_idle_cpu hmode hinbox⟩,
    fun c rest hmode hinbox => ?_⟩
  · have htake : takeNext s.runMode s.inbox = some (c, held ++ rest) := by
      rw [takeNext_of_running hrun, hinbox, takeCpu_of_held held hheld c hport rest]
    rw [← hport]
    refine ⟨fun i => step_of_decode htake, fun e hdecode => ?_⟩
    rw [step_eq_illegal_of_decode_error htake (by intro h; simp [h] at hrun) hdecode, illegal, if_pos hrun]
  · rw [takeNext_of_running hrun, takeCpu_none _ hheld]
  · refine step_of_decode ?_ (hport ▸ hdecode)
    rw [hinbox, takeNext_cons_of_not_running (by rw [hmode]; rfl)]
  · split
    · exact step_of_faulted_statusRd hmode hinbox ‹_›
    · exact step_of_faulted_refused hmode hinbox ‹_›

/-- Settles O7: a step is the command of the word it takes. -/
theorem stepRunsDecoded : Obligations.StepRunsDecoded := fun _ _ _ _ => step_of_decode

/-- Settles O54: no word, a command, or a word of no command; each ends in a next state. -/
theorem stepAlwaysNext : Obligations.StepAlwaysNext := by
  intro s
  rcases step_cases s with ⟨-, hstep⟩ | ⟨c, others, i, -, -, hstep⟩ | ⟨c, others, e, -, -, hstep⟩ <;>
    exact ⟨_, hstep⟩

/-! ### The host port holds -/

theorem after_eq_hold_of_running {i : Instr} {s : State} (hport : i.port = .host) (hrun : s.runMode.isRunning = true) :
    after i s = hold (encode i) s := by
  cases i with
  | statusRd => exact if_pos hrun
  | memRd | memWr | tickAdv | tickRd | runFrame | render | execFrame | fbRd => exact onHost_running hrun _ _
  | cpuRd | cpuWr | cpuAdv | cpuStepEnd => cases hport

/-- A command leaves the waiting words as they are, but a host command that is held waits again. -/
theorem effect_inbox {i : Instr} {s t : State} (h : Effect i s t) (hport : i.port = .cpu) : t.inbox = s.inbox := by
  cases h with
  | held port => cases port.symm.trans hport
  | cpuWhileIdle | tickAdvOverflow | fbRdRange | fbRdInvalid | cpuAdvOverflow | stepEndZero => exact raise_inbox _ _ _
  | runFrameEnds | execFrameEnds | stepEndFrame => exact endFrame_inbox _ _ _
  | refused | status | memRd | memWr | tickAdv | tickRd | runFrameStarts | execFrameStarts | render | fbRd | cpuRd
  | cpuWr | cpuAdv | stepEndNext => rfl

theorem rejectWord_inbox (p : Port) (s : State) : (rejectWord p s).inbox = s.inbox := by
  rcases rejectWord_cases p s with ⟨-, hreject⟩ | ⟨-, hreject⟩ <;> rw [hreject]
  · exact refuse_inbox _ _
  · exact raise_inbox _ _ _

/-- While RUNNING a step takes at most its own word, of the CPU port, from those that wait (R56). -/
theorem step_waitingHost_of_running {s t : State} (hrun : s.runMode.isRunning = true) (hstep : step s = .next t) :
    waitingHost t = waitingHost s := by
  rcases step_effect hstep with
    ⟨-, rfl⟩ | ⟨c, others, i, htake, hdecode, heffect⟩ | ⟨c, others, e, htake, -, rfl⟩
  · rfl
  · have hcpu : i.port = .cpu := (port_eq_of_decode hdecode).trans (takeNext_port htake hrun)
    rw [waitingHost, effect_inbox heffect hcpu]
    exact filter_host_of_takeCpu (takeNext_of_running hrun _ ▸ htake)
  · rw [waitingHost, rejectWord_inbox]
    exact filter_host_of_takeCpu (takeNext_of_running hrun _ ▸ htake)

/-- Settles O56: a step takes a word of the CPU port only, and a host command goes back in front of those that wait. -/
theorem hostPortHolds : Obligations.HostPortHolds := by
  refine ⟨fun s t => step_waitingHost_of_running, fun i s hport hrun => ?_⟩
  rw [exec_eq_next, after_eq_hold_of_running hport hrun]
  rfl

end Sys2Proof.Proofs
end

section
/-! Who writes each piece of state (10_state.md R16, R18, R23, R24; 60_exceptions.md R96). -/

namespace Sys2Proof.Proofs
open Sys2Proof.Machine Sys2Proof.Safety

/-! ### A step, by what it runs -/

/-- A step runs a command, or it takes no word or a word of no command, and keeps all but RUN_MODE, FAULT_CODE and the
words at the ports. -/
theorem step_runs_or_keeps {s t : State} (hstep : step s = .next t) :
    (∃ i others, Runs s i ∧ Effect i { s with inbox := others } t) ∨
    (t.mem = s.mem ∧ t.ticks = s.ticks ∧ t.stepAcc = s.stepAcc ∧ t.fb = s.fb ∧ t.fbValid = s.fbValid) := by
  rcases step_effect hstep with ⟨-, rfl⟩ | ⟨c, others, i, htake, hdecode, heffect⟩ | ⟨c, others, e, -, -, rfl⟩
  · exact .inr ⟨rfl, rfl, rfl, rfl, rfl⟩
  · exact .inl ⟨i, others, ⟨c, others, htake, hdecode⟩, heffect⟩
  · rcases rejectWord_cases c.port { s with inbox := others } with ⟨-, hreject⟩ | ⟨-, hreject⟩ <;> rw [hreject]
    · exact .inr ⟨rfl, rfl, rfl, rfl, rfl⟩
    · exact .inr ⟨raise_mem _ _ _, raise_ticks _ _ _, raise_stepAcc _ _ _, raise_fb _ _ _, raise_fbValid _ _ _⟩

/-! ### Memory -/

/-- Settles O16: the one address that a step may write is that of the changed byte, by `Memory.read_write`. -/
theorem memoryWriters : Obligations.MemoryWriters := by
  intro s t a hstep hchanged
  obtain ⟨addr, data, hmem, hwriter⟩ := (step_mem_eq_or_write hstep).resolve_left fun hmem => hchanged (by rw [hmem])
  rw [hmem, Memory.read_write] at hchanged ⊢
  have haddr : a = addr := by
    by_contra hother
    exact hchanged (if_neg hother)
  subst haddr
  rw [if_pos rfl]
  exact hwriter

/-! ### TICKS -/

theorem endFrame_ticks_add {s : State} {F : Tick} (m : Bool) (h : F.toNat ≤ s.ticks.toNat) :
    (Machine.endFrame F m s).ticks.toNat + F.toNat = s.ticks.toNat := by
  rw [endFrame_ticks, ticks_sub_toNat h, Nat.sub_add_cancel h]

/-- What a command does to TICKS: an advance by its amount, the one subtraction of a frame's end, or nothing (R18). -/
theorem effect_ticks {i : Instr} {s t : State} (h : Effect i s t) :
    t.ticks = s.ticks ∨
    (∃ x : Tick, (i = .tickAdv x ∨ i = .cpuAdv x) ∧ t.ticks.toNat = s.ticks.toNat + x.toNat) ∨
    ((i = .runFrame ∨ i = .execFrame ∨ i = .cpuStepEnd) ∧ t.runMode = .idle ∧
      t.ticks.toNat + Config.frameTicks.toNat = s.ticks.toNat) := by
  cases h with
  | tickAdv _ fits => exact .inr (.inl ⟨_, .inl rfl, BitVec.toNat_add_of_lt fits⟩)
  | cpuAdv _ fits => exact .inr (.inl ⟨_, .inr rfl, BitVec.toNat_add_of_lt fits⟩)
  | runFrameEnds _ reached => exact .inr (.inr ⟨.inl rfl, endFrame_runMode _ _ _, endFrame_ticks_add _ reached⟩)
  | execFrameEnds _ reached =>
    exact .inr (.inr ⟨.inr (.inl rfl), endFrame_runMode _ _ _, endFrame_ticks_add _ reached⟩)
  | @stepEndFrame _ m _ _ reached =>
    have hsum := endFrame_ticks_add (s := respond .cpu .done 0#32 s) m reached
    exact .inr (.inr ⟨.inr (.inr rfl), endFrame_runMode _ _ _, hsum⟩)
  | cpuWhileIdle | tickAdvOverflow | fbRdRange | fbRdInvalid | cpuAdvOverflow | stepEndZero =>
    exact .inl (raise_ticks _ _ _)
  | held | refused | status | memRd | memWr | tickRd | runFrameStarts | execFrameStarts | render | fbRd | cpuRd | cpuWr
  | stepEndNext => exact .inl rfl

/-- Settles O28: a step that changes TICKS runs a command, and `effect_ticks` says what that command does. -/
theorem ticksWriters : Obligations.TicksWriters := by
  intro s t hstep hchanged
  rcases step_runs_or_keeps hstep with ⟨i, others, hruns, heffect⟩ | ⟨-, hkept, -⟩
  · rcases effect_ticks heffect with hkept | ⟨x, hadvance, hsum⟩ | ⟨hboundary, hidle, hsum⟩
    · exact absurd hkept hchanged
    · refine .inl ⟨x, hadvance.imp ?_ ?_, hsum⟩ <;> rintro rfl <;> exact hruns
    · refine .inr ⟨hboundary.imp ?_ (Or.imp ?_ ?_), hidle, hsum⟩ <;> rintro rfl <;> exact hruns
  · exact absurd hkept hchanged

/-! ### The frame buffer -/

/-- The commands that may render; any other keeps FB and FB_VALID (R23, R24). -/
theorem effect_keeps_fb_or_renders {i : Instr} {s t : State} (h : Effect i s t) :
    (t.fb = s.fb ∧ t.fbValid = s.fbValid) ∨
    (i = .render ∨ i = .execFrame ∨ (i = .cpuStepEnd ∧ s.runMode = .running true)) := by
  cases h with
  | render => exact .inr (.inl rfl)
  | execFrameEnds => exact .inr (.inr (.inl rfl))
  | runFrameEnds => exact .inl ⟨rfl, rfl⟩
  | @stepEndFrame _ m mode =>
    cases m with
    | true => exact .inr (.inr (.inr ⟨rfl, mode⟩))
    | false => exact .inl ⟨rfl, rfl⟩
  | cpuWhileIdle | tickAdvOverflow | fbRdRange | fbRdInvalid | cpuAdvOverflow | stepEndZero =>
    exact .inl ⟨raise_fb _ _ _, raise_fbValid _ _ _⟩
  | held | refused | status | memRd | memWr | tickAdv | tickRd | runFrameStarts | execFrameStarts | fbRd | cpuRd | cpuWr
  | cpuAdv | stepEndNext => exact .inl ⟨rfl, rfl⟩

/-- Settles O42: the command is one that may render, and the change is a render of the memory. -/
theorem frameBufferWriters : Obligations.FrameBufferWriters := by
  intro s t hstep hchanged
  have hnotKept : ¬ (t.fb = s.fb ∧ t.fbValid = s.fbValid) := fun ⟨hfb, hvalid⟩ =>
    hchanged.elim (· hfb) (· hvalid)
  refine ⟨?_, (step_keptOrRendered hstep).resolve_left hnotKept⟩
  rcases step_runs_or_keeps hstep with ⟨i, others, hruns, heffect⟩ | ⟨-, -, -, hkept⟩
  · rcases (effect_keeps_fb_or_renders heffect).resolve_left hnotKept with rfl | rfl | ⟨rfl, hmode⟩
    · exact .inl hruns
    · exact .inr (.inl hruns)
    · exact .inr (.inr ⟨hruns, hmode⟩)
  · exact absurd hkept hnotKept

/-! ### Faults -/

/-- Settles O45: the step is a fault entry, which writes none of these. -/
theorem faultsArePrecise : Obligations.FaultsArePrecise := by
  intro s t hstep hmode hfaults
  obtain ⟨c, others, f, -, -, rfl⟩ := step_eq_raise_of_faults hstep hmode hfaults
  exact ⟨raise_mem _ _ _, raise_ticks _ _ _, raise_stepAcc _ _ _, raise_fb _ _ _, raise_fbValid _ _ _⟩

end Sys2Proof.Proofs
end

section
/-! Canonical memory (10_state.md R15): the reads of a canonical list tell which cells it lists. -/

namespace Sys2Proof.Proofs
open Sys2Proof.Machine Sys2Proof.Safety

/-- In a list of rising addresses, the byte listed at an address is that of the one cell there. -/
theorem find_eq_some_iff_mem {m : Memory} (hrising : (m.map Prod.fst).Pairwise (· < ·)) (k : Nat) (v : Byte) :
    Memory.find m k = some v ↔ (k, v) ∈ m := by
  induction m with
  | nil => simp [Memory.find]
  | cons head rest ih =>
    obtain ⟨a, w⟩ := head
    rw [List.map_cons, List.pairwise_cons] at hrising
    obtain ⟨hhead, hrest⟩ := hrising
    have hlater : ∀ v, (a, v) ∉ rest := fun v hmem => lt_irrefl a (hhead a (List.mem_map_of_mem hmem))
    by_cases hk : a = k
    · subst hk
      simp [Memory.find, hlater, eq_comm]
    · simp [Memory.find, hk, Ne.symm hk, ih hrest]

/-- A canonical memory lists a byte exactly where it reads otherwise than INIT_MEMORY (R41), and lists what it reads. -/
theorem mem_iff_read {m : Memory} (hwf : m.wf) (a : Addr) (v : Byte) :
    (a.toNat, v) ∈ m ↔ m.read a = v ∧ v ≠ Config.initMemory a := by
  obtain ⟨hrising, hcells⟩ := hwf
  rw [← find_eq_some_iff_mem hrising]
  constructor
  · intro hfind
    have hcell := hcells _ ((find_eq_some_iff_mem hrising _ _).mp hfind)
    exact ⟨by rw [Memory.read, hfind]; rfl, by simpa using hcell.2⟩
  · rintro ⟨hread, hne⟩
    cases hfind : Memory.find m a.toNat with
    | none =>
      rw [Memory.read, hfind] at hread
      exact absurd hread.symm hne
    | some w =>
      rw [Memory.read, hfind] at hread
      exact congrArg some hread

theorem mem_of_read_eq {m m' : Memory} (hwf : m.wf) (hwf' : m'.wf) (hread : ∀ a : Addr, m.read a = m'.read a)
    {cell : Host.Cell} (h : cell ∈ m) : cell ∈ m' := by
  obtain ⟨k, v⟩ := cell
  obtain ⟨a, rfl⟩ : ∃ a : Addr, a.toNat = k := ⟨⟨k, (hwf.2 _ h).1⟩, rfl⟩
  rw [mem_iff_read hwf, hread] at h
  exact (mem_iff_read hwf' a v).mpr h

/-- Settles O17: equal reads list the same cells, and rising addresses leave one order for them. -/
theorem canonicalMemory : Obligations.CanonicalMemory := by
  intro m m' hwf hwf' hread
  have hcells (cell : Host.Cell) : cell ∈ m ↔ cell ∈ m' :=
    ⟨mem_of_read_eq hwf hwf' hread, mem_of_read_eq hwf' hwf fun a => (hread a).symm⟩
  have hnodup {l : Memory} (h : l.wf) : l.Nodup := .of_map Prod.fst (h.1.imp ne_of_lt)
  have hperm : m.Perm m' := (List.perm_ext_iff_of_nodup (hnodup hwf) (hnodup hwf')).mpr hcells
  exact hperm.eq_of_pairwise (fun _ _ _ _ hlt hgt => absurd hlt (lt_asymm hgt)) (List.pairwise_map.mp hwf.1)
    (List.pairwise_map.mp hwf'.1)

end Sys2Proof.Proofs
end

section
/-! The invariant of every run (10_state.md R15, R20 to R22; 60_exceptions.md R97): it holds after reset, and each of
its clauses survives a step. -/

namespace Sys2Proof.Proofs
open Sys2Proof.Machine Sys2Proof.Safety

/-- Settles O52: no byte is listed, no fault has been raised, no frame is in progress and none has been rendered. -/
theorem invReset : Obligations.InvReset where
  memCanonical := Memory.wf_nil
  faultedIff := by decide
  faultCodeProduced := by decide
  stepStartedBelow := nofun
  fbComplete := nofun

/-- The words at the ports do not matter to the invariant. -/
theorem inv_with_inbox {s : State} (h : Inv s) (words : List PortWord) : Inv { s with inbox := words } :=
  ⟨h.memCanonical, h.faultedIff, h.faultCodeProduced, h.stepStartedBelow, h.fbComplete⟩

theorem step_memCanonical {s t : State} (hinv : Inv s) (hstep : step s = .next t) : t.mem.wf := by
  rcases step_mem_eq_or_write hstep with hmem | ⟨addr, data, hmem, -⟩ <;> rw [hmem]
  · exact hinv.memCanonical
  · exact Memory.wf_write hinv.memCanonical addr data

/-- FAULTED is terminal (R100). -/
theorem step_runMode_of_faulted {s t : State} (hmode : s.runMode = .faulted) (hstep : step s = .next t) :
    t.runMode = .faulted := by
  obtain ⟨hidle, hword⟩ := faultedState s hmode
  cases hinbox : s.inbox with
  | nil =>
    cases hstep.symm.trans (hidle hinbox)
    exact hmode
  | cons c rest =>
    obtain ⟨hstatus, hrefused⟩ := hword c rest hinbox
    by_cases h : c.port = .host ∧ c.word = 0x0900000000000000#64
    · cases hstep.symm.trans (hstatus h)
      exact hmode
    · cases hstep.symm.trans (hrefused h)
      exact hmode

/-- A step keeps FAULT_CODE and whether the mode is FAULTED, or it raises a fault of a code from 1 to 5 (R97, R98). -/
theorem step_keeps_or_faults {s t : State} (hstep : step s = .next t) :
    (t.faultCode = s.faultCode ∧ (t.runMode = .faulted ↔ s.runMode = .faulted)) ∨
    (t.runMode = .faulted ∧ 1 ≤ t.faultCode.toNat ∧ t.faultCode.toNat ≤ 5) := by
  by_cases hbefore : s.runMode = .faulted
  · have hcode := (step_faultCode_eq_or_enters_faulted hstep).resolve_right fun h => h.1 hbefore
    exact .inl ⟨hcode, iff_of_true (step_runMode_of_faulted hbefore hstep) hbefore⟩
  · by_cases hafter : t.runMode = .faulted
    · exact .inr ⟨hafter, (faultCauses s t hstep hbefore).1 hafter⟩
    · have hcode := (step_faultCode_eq_or_enters_faulted hstep).resolve_right fun h => hafter h.2
      exact .inl ⟨hcode, iff_of_false hafter hbefore⟩

theorem step_faultedIff {s t : State} (hinv : Inv s) (hstep : step s = .next t) :
    t.runMode = .faulted ↔ t.faultCode ≠ 0#8 := by
  rcases step_keeps_or_faults hstep with ⟨hcode, hmode⟩ | ⟨hmode, hpos, -⟩
  · rw [hcode, hmode, hinv.faultedIff]
  · refine iff_of_true hmode fun hzero => ?_
    rw [hzero] at hpos
    cases hpos

theorem step_faultCodeProduced {s t : State} (hinv : Inv s) (hstep : step s = .next t) : t.faultCode.toNat ≤ 5 := by
  rcases step_keeps_or_faults hstep with ⟨hcode, -⟩ | ⟨-, -, hle⟩
  · rw [hcode]
    exact hinv.faultCodeProduced
  · exact hle

/-- The clause of the invariant on the outstanding step. -/
def StepStartedBelow (s : State) : Prop :=
  s.runMode.isRunning = true →
    s.stepAcc.toNat ≤ s.ticks.toNat ∧ s.ticks.toNat - s.stepAcc.toNat < Config.frameTicks.toNat

/-- A step is requested below the boundary with STEP_ACC = 0, and CPU_ADV adds to TICKS and to STEP_ACC alike. -/
theorem effect_stepStartedBelow {i : Instr} {s t : State} (hinv : Inv s) (h : Effect i s t) : StepStartedBelow t := by
  cases h with
  | runFrameStarts _ below | execFrameStarts _ below | stepEndNext _ _ below =>
    exact fun _ => ⟨Nat.zero_le _, below⟩
  | @cpuAdv x s m mode fits =>
    have hrun : s.runMode.isRunning = true := congrArg RunMode.isRunning mode
    obtain ⟨hle, hbelow⟩ := hinv.stepStartedBelow hrun
    have hticks : (s.ticks + x).toNat = s.ticks.toNat + x.toNat := BitVec.toNat_add_of_lt fits
    have hacc := stepAcc_add_toNat hinv hrun fits
    intro _
    simp only [respond_stepAcc, respond_ticks, hticks, hacc]
    omega
  | tickAdv mode =>
    intro hrun
    simp [mode] at hrun
  | cpuWhileIdle | tickAdvOverflow | fbRdRange | fbRdInvalid | cpuAdvOverflow | stepEndZero | runFrameEnds
  | execFrameEnds | stepEndFrame =>
    intro hrun
    simp at hrun
  | held | refused | status | memRd | memWr | tickRd | render | fbRd | cpuRd | cpuWr => exact hinv.stepStartedBelow

theorem step_stepStartedBelow {s t : State} (hinv : Inv s) (hstep : step s = .next t) : StepStartedBelow t := by
  rcases step_effect hstep with ⟨-, rfl⟩ | ⟨c, others, i, -, -, heffect⟩ | ⟨c, others, e, -, -, rfl⟩
  · exact hinv.stepStartedBelow
  · exact effect_stepStartedBelow (inv_with_inbox hinv others) heffect
  · intro hrun
    rcases rejectWord_cases c.port { s with inbox := others } with ⟨hmode, hreject⟩ | ⟨-, hreject⟩ <;>
      simp [hreject] at hrun
    simp [show s.runMode = .faulted from hmode] at hrun

theorem step_fbComplete {s t : State} (hinv : Inv s) (hstep : step s = .next t) (hvalid : t.fbValid = true) :
    ∃ m : Memory, m.wf ∧ t.fb = frameOf m := by
  rcases step_keptOrRendered hstep with ⟨hfb, hkept⟩ | ⟨-, -, hfb, -⟩
  · rw [hfb]
    exact hinv.fbComplete (hkept ▸ hvalid)
  · exact ⟨s.mem, hinv.memCanonical, hfb⟩

/-- Settles O53: clause by clause. -/
theorem stepKeepsInv : Obligations.StepKeepsInv := fun _ _ hinv hstep =>
  { memCanonical := step_memCanonical hinv hstep
    faultedIff := step_faultedIff hinv hstep
    faultCodeProduced := step_faultCodeProduced hinv hstep
    stepStartedBelow := step_stepStartedBelow hinv hstep
    fbComplete := step_fbComplete hinv hstep }

end Sys2Proof.Proofs
end

section
/-! How many steps a frame takes (41_cycle_sync.md R77): every step that leaves the frame RUNNING adds a tick or more,
and after the end of a frame, or a fault, no command of a step is carried out. -/

namespace Sys2Proof.Proofs
open Sys2Proof.Machine Sys2Proof.Safety

theorem port_of_isStepCommand {i : Instr} (h : isStepCommand i = true) : i.port = .cpu := by
  cases i with
  | cpuRd | cpuWr | cpuAdv => rfl
  | memRd | memWr | tickAdv | tickRd | runFrame | render | execFrame | fbRd | statusRd | cpuStepEnd => cases h

/-- FAULTED is terminal, command by command (R100). -/
theorem after_runMode_of_faulted {s : State} (hmode : s.runMode = .faulted) (i : Instr) :
    (after i s).runMode = .faulted := by
  by_cases hi : i = .statusRd
  · rw [hi, after, if_neg (by simp [hmode])]
    exact hmode
  · rw [after_eq_refuse_of_faulted hi hmode]
    exact hmode

theorem afterAll_runMode_of_faulted {s : State} (hmode : s.runMode = .faulted) (commands : List Instr) :
    (afterAll commands s).runMode = .faulted := by
  induction commands generalizing s with
  | nil => exact hmode
  | cons i rest ih => exact ih (after_runMode_of_faulted hmode i)

/-- A CPU-port command while IDLE is ILLEGAL_COMMAND (R56). -/
theorem after_cpu_of_idle {s : State} (hmode : s.runMode = .idle) {i : Instr} (hport : i.port = .cpu) :
    (after i s).runMode = .faulted := by
  rw [after_eq_raise_of_idle hport hmode, raise_runMode]

/-- A step sent while IDLE is ILLEGAL_COMMAND from its first command on (R56). -/
theorem afterAll_step_of_idle {s : State} {body : List Instr} (hmode : s.runMode = .idle)
    (hbody : body.all isStepCommand = true) (rest : List Instr) :
    (afterAll (body ++ .cpuStepEnd :: rest) s).runMode = .faulted := by
  cases body with
  | nil => exact afterAll_runMode_of_faulted (after_cpu_of_idle hmode rfl) _
  | cons i body =>
    rw [List.all_cons, Bool.and_eq_true] at hbody
    exact afterAll_runMode_of_faulted (after_cpu_of_idle hmode (port_of_isStepCommand hbody.1)) _

section
variable {s t : State} {m : Bool} {ticks acc : Nat}

/-- The commands of a step whose ticks do not fit 32 bits end in TICK_OVERFLOW (R70). -/
theorem InFrame.after_body_of_overflow {body : List Instr} (h : InFrame s m ticks acc t)
    (hbody : body.all isStepCommand = true) (hacc : acc ≤ ticks) (hticks : ticks < 2 ^ 32)
    (hover : 2 ^ 32 ≤ ticks + stepTotal body) : (afterAll body t).runMode = .faulted := by
  induction body generalizing ticks acc t with
  | nil => exact absurd hover (Nat.not_le.mpr hticks)
  | cons i rest ih =>
    rw [List.all_cons, Bool.and_eq_true] at hbody
    rw [stepTotal_cons, ← Nat.add_assoc] at hover
    by_cases hfits : ticks + reported i < 2 ^ 32
    · exact ih (h.after_stepCommand hbody.1 hacc hfits) hbody.2 (by omega) hfits hover
    · cases i with
      | cpuAdv x =>
        have hadvance : (after (.cpuAdv x) t).runMode = .faulted := by
          rw [after_cpuAdv_of_overflow (congrArg RunMode.isRunning h.mode) (h.ticks ▸ Nat.not_lt.mp hfits)]
          rfl
        exact afterAll_runMode_of_faulted hadvance rest
      | cpuRd | cpuWr => exact absurd hticks hfits
      | memRd | memWr | tickAdv | tickRd | runFrame | render | execFrame | fbRd | statusRd | cpuStepEnd => cases hbody.1

/-- A whole step sent in a frame below the boundary: it faults, or it makes progress and stays below the boundary, or it
ends the frame (R73). -/
theorem InFrame.after_step_cases {body : List Instr} (h : InFrame s m ticks 0 t)
    (hbody : body.all isStepCommand = true) (hticks : ticks < 2 ^ 32) :
    (after .cpuStepEnd (afterAll body t)).runMode = .faulted ∨
    (0 < stepTotal body ∧ ticks + stepTotal body < Config.frameTicks.toNat ∧
      InFrame s m (ticks + stepTotal body) 0 (after .cpuStepEnd (afterAll body t))) ∨
    (after .cpuStepEnd (afterAll body t)).runMode = .idle := by
  by_cases hfits : ticks + stepTotal body < 2 ^ 32
  · have hend := h.after_body hbody (Nat.zero_le _) hfits
    rcases Nat.eq_zero_or_pos (stepTotal body) with hzero | hpos
    · have hacc : (afterAll body t).stepAcc = 0#32 := BitVec.eq_of_toNat_eq (by rw [hend.acc, hzero]; rfl)
      rw [after_cpuStepEnd_of_zero (congrArg RunMode.isRunning hend.mode) hacc]
      exact .inl rfl
    · by_cases hbelow : ticks + stepTotal body < Config.frameTicks.toNat
      · exact .inr (.inl ⟨hpos, hbelow, h.after_step ⟨hbody, hpos⟩ hbelow⟩)
      · exact .inr (.inr (h.after_lastStep ⟨hbody, hpos⟩ (Nat.not_lt.mp hbelow) hfits).mode)
  · have hfaulted := h.after_body_of_overflow hbody (Nat.zero_le _) hticks (Nat.not_lt.mp hfits)
    exact .inl (after_runMode_of_faulted hfaulted _)

/-- Below the boundary each step that leaves the frame RUNNING takes one of the ticks that are left, and the step that
ends it may take all of them. -/
theorem InFrame.length_steps_le {steps : List (List Instr)} (h : InFrame s m ticks 0 t)
    (hbelow : ticks < Config.frameTicks.toNat) (hsteps : ∀ body ∈ steps, body.all isStepCommand = true) :
    ((afterAll (stepCommands steps) t).runMode.isRunning = true → steps.length < Config.frameTicks.toNat - ticks) ∧
    ((afterAll (stepCommands steps) t).runMode = .idle → steps.length ≤ Config.frameTicks.toNat - ticks) := by
  induction steps generalizing ticks t with
  | nil => exact ⟨fun _ => Nat.sub_pos_of_lt hbelow, fun _ => Nat.zero_le _⟩
  | cons body rest ih =>
    rw [List.forall_mem_cons] at hsteps
    rw [stepCommands_cons, afterAll_append, afterAll_cons, List.length_cons]
    have hframe : Config.frameTicks.toNat < 2 ^ 32 := Config.frameTicks.isLt
    rcases h.after_step_cases hsteps.1 (hbelow.trans hframe) with hfaulted | ⟨hpos, hstill, hnext⟩ | hidle
    · have hend := afterAll_runMode_of_faulted hfaulted (stepCommands rest)
      simp [hend]
    · obtain ⟨hrunning, hended⟩ := ih hnext hstill hsteps.2
      exact ⟨fun hrun => by have := hrunning hrun; omega, fun hidle => by have := hended hidle; omega⟩
    · cases rest with
      | nil =>
        refine ⟨fun hrun => ?_, fun _ => Nat.sub_pos_of_lt hbelow⟩
        simp [hidle] at hrun
      | cons next rest =>
        rw [stepCommands_cons, afterAll_step_of_idle hidle (hsteps.2 next (List.mem_cons_self ..))]
        exact ⟨nofun, nofun⟩

end

/-- Settles O26: the frame starts below the boundary, and each step takes one of the ticks up to it. -/
theorem frameStepsBounded : Obligations.FrameStepsBounded := by
  intro s t renderAfter steps hmode hbelow hsteps hrun
  rw [runAll_eq_next, afterAll_cons] at hrun
  cases hrun
  exact (inFrame_after_frameCommand hmode hbelow renderAfter).length_steps_le hbelow hsteps

end Sys2Proof.Proofs
end

section
/-! The synchronizer from two states that differ in memory and frame buffer (41_cycle_sync.md R78): each operation keeps
them alike in what it reads, and sends the same words from both. -/

namespace Sys2Proof.Proofs
open Sys2Proof.Machine Sys2Proof.Safety

/-- `t` and `t'` hold the same TICKS, RUN_MODE, STEP_ACC and FAULT_CODE, and were reached from `s` and `s'` with the
same words sent. -/
structure SyncAlike (s s' t t' : State) : Prop where
  ticks : t.ticks = t'.ticks
  runMode : t.runMode = t'.runMode
  stepAcc : t.stepAcc = t'.stepAcc
  faultCode : t.faultCode = t'.faultCode
  sent : ∃ new, t.sent = s.sent ++ new ∧ t'.sent = s'.sent ++ new

section
variable {s s' t t' : State}

/-- The same words sent from both, after those sent before. -/
theorem SyncAlike.sent_append (h : SyncAlike s s' t t') (words : List PortWord) :
    ∃ new, t.sent ++ words = s.sent ++ new ∧ t'.sent ++ words = s'.sent ++ new := by
  obtain ⟨new, ht, ht'⟩ := h.sent
  exact ⟨new ++ words, by rw [ht, List.append_assoc], by rw [ht', List.append_assoc]⟩

theorem SyncAlike.respond (h : SyncAlike s s' t t') (p : Port) (k : RespKind) (v : BitVec 32) :
    SyncAlike s s' (Machine.respond p k v t) (Machine.respond p k v t') :=
  ⟨h.ticks, h.runMode, h.stepAcc, h.faultCode, h.sent_append _⟩

theorem SyncAlike.refuse (h : SyncAlike s s' t t') (p : Port) :
    SyncAlike s s' (Machine.refuse p t) (Machine.refuse p t') := by
  rw [Machine.refuse, Machine.refuse, h.faultCode]
  exact h.respond _ _ _

theorem SyncAlike.hold (h : SyncAlike s s' t t') (w : Word) :
    SyncAlike s s' (Machine.hold w t) (Machine.hold w t') :=
  ⟨h.ticks, h.runMode, h.stepAcc, h.faultCode, h.sent⟩

theorem SyncAlike.requestStep (h : SyncAlike s s' t t') :
    SyncAlike s s' (Machine.requestStep t) (Machine.requestStep t') :=
  ⟨h.ticks, h.runMode, rfl, h.faultCode, h.sent_append _⟩

theorem SyncAlike.raise (h : SyncAlike s s' t t') (p : Port) (f : BlockFault) :
    SyncAlike s s' (Machine.raise p f t) (Machine.raise p f t') where
  ticks := by simp [h.ticks]
  runMode := by simp
  stepAcc := by simp [h.stepAcc]
  faultCode := by simp
  sent := by
    rw [raise_sent, raise_sent, h.runMode]
    exact h.sent_append _

theorem SyncAlike.endFrame (h : SyncAlike s s' t t') (F : Tick) (m : Bool) :
    SyncAlike s s' (Machine.endFrame F m t) (Machine.endFrame F m t') where
  ticks := by simp [h.ticks]
  runMode := by simp
  stepAcc := by simp [h.stepAcc]
  faultCode := by simp [h.faultCode]
  sent := by
    rw [endFrame_sent, endFrame_sent]
    exact h.sent_append _

/-- The boundary test reads TICKS only. -/
theorem SyncAlike.startFrame (h : SyncAlike s s' t t') (F : Tick) (m : Bool) :
    SyncAlike s s' (Machine.startFrame F m t) (Machine.startFrame F m t') := by
  rw [Machine.startFrame, Machine.startFrame, h.ticks]
  split
  · exact h.endFrame F m
  · exact SyncAlike.requestStep ⟨rfl, rfl, h.stepAcc, h.faultCode, h.sent⟩

theorem SyncAlike.endStep (h : SyncAlike s s' t t') (F : Tick) (m : Bool) :
    SyncAlike s s' (Machine.endStep F m t) (Machine.endStep F m t') := by
  have hdone := h.respond .cpu .done 0#32
  simp only [Machine.endStep, h.ticks, h.stepAcc]
  split
  · exact h.raise _ _
  · split
    · exact hdone.endFrame F m
    · exact hdone.requestStep

theorem SyncAlike.hostAdvance (h : SyncAlike s s' t t') (x : Tick) :
    SyncAlike s s' (Machine.hostAdvance x t) (Machine.hostAdvance x t') := by
  simp only [Machine.hostAdvance, h.ticks]
  split
  · exact h.raise _ _
  · refine SyncAlike.respond ?_ _ _ _
    exact ⟨rfl, h.runMode, h.stepAcc, h.faultCode, h.sent⟩

theorem SyncAlike.cpuAdvance (h : SyncAlike s s' t t') (x : Tick) :
    SyncAlike s s' (Machine.cpuAdvance x t) (Machine.cpuAdvance x t') := by
  simp only [Machine.cpuAdvance, h.ticks]
  split
  · exact h.raise _ _
  · refine SyncAlike.respond ?_ _ _ _
    exact ⟨rfl, h.runMode, congrArg (· + x) h.stepAcc, h.faultCode, h.sent⟩

/-- The gate of the host port reads RUN_MODE and FAULT_CODE only. -/
theorem SyncAlike.onHost (h : SyncAlike s s' t t') (i : Instr) {effect : State → State}
    (heffect : SyncAlike s s' (effect t) (effect t')) :
    SyncAlike s s' (Machine.onHost i effect t) (Machine.onHost i effect t') := by
  rw [Machine.onHost, Machine.onHost, h.runMode]
  split
  · exact heffect
  · exact h.hold _
  · exact h.refuse _

/-- The gate of the CPU port reads RUN_MODE and FAULT_CODE only. -/
theorem SyncAlike.onCpu (h : SyncAlike s s' t t') {effect : Bool → State → State}
    (heffect : ∀ m, SyncAlike s s' (effect m t) (effect m t')) :
    SyncAlike s s' (Machine.onCpu effect t) (Machine.onCpu effect t') := by
  rw [Machine.onCpu, Machine.onCpu, h.runMode]
  split
  · exact h.raise _ _
  · exact heffect _
  · exact h.refuse _

end

/-- Settles O27: each of the six commands is its gate and an operation, and both keep the states alike. -/
theorem syncIndependent : Obligations.SyncIndependent := by
  intro i s s' t t' hi hticks hmode hacc hcode hexec hexec'
  rw [exec_next_iff] at hexec hexec'
  have h : SyncAlike s s' s s' := ⟨hticks, hmode, hacc, hcode, [], by simp, by simp⟩
  have hafter : SyncAlike s s' t t' := by
    subst hexec hexec'
    rcases hi with ⟨x, rfl⟩ | rfl | rfl | rfl | ⟨x, rfl⟩ | rfl
    · exact h.onHost _ (h.hostAdvance x)
    · have hread := h.respond .host .value s.ticks
      exact h.onHost (effect := fun u => respond .host .value u.ticks u) _ (hticks ▸ hread)
    · exact h.onHost _ (h.startFrame _ _)
    · exact h.onHost _ (h.startFrame _ _)
    · exact h.onCpu fun _ => h.cpuAdvance x
    · exact h.onCpu (h.endStep _)
  exact ⟨hafter.ticks, hafter.runMode, hafter.stepAcc, hafter.faultCode, hafter.sent⟩

end Sys2Proof.Proofs
end

section
/-! What a frame depends on (42_frame_renderer.md R90), and the fields of STATUS (10_state.md R21). -/

namespace Sys2Proof.Proofs
open Sys2Proof.Machine Sys2Proof.Safety

theorem frameOf_eq_of_screen {m m' : Memory} (h : ∀ a : Addr, inScreen a → m.read a = m'.read a) :
    frameOf m = frameOf m' := by
  refine Frame.ext_chunks fun r c hr hc => ?_
  simp only [frameOf, Vector.getElem_ofFn]
  split
  · rw [h _ (inScreen_screenAddr (by omega) (by omega))]
  · rfl

/-- Settles O37: every address that `frame(Mem)` reads is one of the screen. -/
theorem frameDependsOnScreenOnly : Obligations.FrameDependsOnScreenOnly := by
  intro s s' h
  rw [renderFrame_eq, renderFrame_eq]
  exact frameOf_eq_of_screen h

/-- The place of each field in the concatenation of R21, from the lowest up. -/
theorem statusRegister_fields (s : State) :
    (statusRegister s).extractLsb' 0 2 = stateField s.runMode ∧ (statusRegister s).getLsbD 2 = s.fbValid ∧
    (statusRegister s).extractLsb' 3 5 = 0#5 ∧ (statusRegister s).extractLsb' 8 8 = s.faultCode ∧
    (statusRegister s).extractLsb' 16 16 = 0#16 := by
  refine ⟨?_, ?_, ?_, ?_, ?_⟩
  case refine_2 =>
    rw [statusRegister, BitVec.getLsbD_append, if_neg (by decide), BitVec.getLsbD_append, if_pos (by decide)]
    exact BitVec.getLsbD_ofBool ..
  all_goals
    simp (disch := decide) only [statusRegister, BitVec.extractLsb'_append_eq_of_le,
      BitVec.extractLsb'_append_eq_of_add_le, Nat.reduceSub, BitVec.extractLsb'_eq_self]

/-- Settles O43: the fields of the concatenation, with STATE mode by mode. -/
theorem statusFields : Obligations.StatusFields := by
  intro s
  obtain ⟨hstate, hrest⟩ := statusRegister_fields s
  refine ⟨?_, hrest⟩
  rw [hstate]
  cases s.runMode <;> rfl

end Sys2Proof.Proofs
end
